-- ==== Sys2Proof/Word.lean ====
section
/-! DEFINITION. The bit vectors of RVI-EXU (00_scope.md R7, R8): registers and addresses of 32 bits, memory cells of
8 bits, register indices of 5 bits. -/

namespace Sys2Proof

/-- A register, an ALU result or an instruction word: `XLEN = ILEN = 32` bits (R7). -/
abbrev Word := BitVec 32

/-- The name of a memory cell: `ALEN = 32` bits, a bit pattern, so the document's address -1 is `0xFFFFFFFF` (R32). -/
abbrev Addr := BitVec 32

/-- One memory cell: `CELL = 8` bits (R7, R50). -/
abbrev Byte := BitVec 8

/-- A register index as it stands in an instruction word: 5 bits, `x0` to `x31` (R21, R90). -/
abbrev RegIdx := BitVec 5

end Sys2Proof
end

