-- ==== Sys2Proof/Config.lean ====
section
/-! DEFINITION. The open parameters of the block (00_scope.md R7). The spec says "the model takes it as an argument", so
they are plain data that a state carries and no step changes (log 2); REG_INIT is an argument of `State.resetWith`. -/

namespace Sys2Proof

/-- `EXT_RTYPE`: which of the two optional Register-type instructions exist (R7, R91). -/
structure ExtRType where
  nor : Bool
  sla : Bool
  deriving DecidableEq, Repr

/-- The default of R7: the empty set. -/
def ExtRType.none : ExtRType := { nor := false, sla := false }

/-- Both optional instructions: every row of the opcode table exists. -/
def ExtRType.all : ExtRType := { nor := true, sla := true }

/-- The parameters of R7 that are not fixed by the spec, REG_INIT apart. `memCapacity = none` is "unbounded" (R72). A
bucket count is positive by its type: a configuration with `BUCKET_COUNT = 0` is not a legal one (R64). -/
structure Config where
  ext         : ExtRType
  bucketCount : { n : Nat // 0 < n }
  memCapacity : Option Nat
  deriving DecidableEq, Repr

/-- The defaults of R7: no optional instruction, 1024 buckets, unbounded capacity. -/
def Config.default : Config :=
  { ext := ExtRType.none, bucketCount := ⟨1024, by decide⟩, memCapacity := Option.none }

/-- Building a configuration; a bucket count of zero is refused: "behavior for 0 is undefined/fatal" (R64, R246, U7). -/
def Config.build? (ext : ExtRType) (bucketCount : Nat) (memCapacity : Option Nat) : Option Config :=
  if h : 0 < bucketCount then some { ext := ext, bucketCount := ⟨bucketCount, h⟩, memCapacity := memCapacity }
  else Option.none

end Sys2Proof
end

