-- ==== Sys2Proof/Syntax.lean ====
section
/-! DEFINITION. The instructions of RVI-EXU: one constructor of `Instr` per row of the opcode table (30_encoding.md R91),
with the fields of the decoded instruction (R90). -/

namespace Sys2Proof

/-- A decoded instruction (R90): `rd`, `rs1`, `rs2` are 5-bit register indices, and `imm` is the 32-bit immediate operand
"already extended" (log 15). Operands stand in the order of the text form (R115): for a store the register stored comes first. -/
inductive Instr where
  | add  (rd rs1 rs2 : RegIdx)
  | sub  (rd rs1 rs2 : RegIdx)
  | and  (rd rs1 rs2 : RegIdx)
  | or   (rd rs1 rs2 : RegIdx)
  | xor  (rd rs1 rs2 : RegIdx)
  | slt  (rd rs1 rs2 : RegIdx)
  | sll  (rd rs1 rs2 : RegIdx)
  | sra  (rd rs1 rs2 : RegIdx)
  | nor  (rd rs1 rs2 : RegIdx)
  | sla  (rd rs1 rs2 : RegIdx)
  | addi (rd rs1 : RegIdx) (imm : Word)
  | andi (rd rs1 : RegIdx) (imm : Word)
  | ori  (rd rs1 : RegIdx) (imm : Word)
  | xori (rd rs1 : RegIdx) (imm : Word)
  | slti (rd rs1 : RegIdx) (imm : Word)
  | lw   (rd rs1 : RegIdx) (imm : Word)
  | lb   (rd rs1 : RegIdx) (imm : Word)
  | sw   (rs2 rs1 : RegIdx) (imm : Word)
  | sb   (rs2 rs1 : RegIdx) (imm : Word)
  | lui  (rd : RegIdx) (imm : Word)
  deriving DecidableEq, Repr

/-- The members of the Register-type set, the optional pair included (R91). -/
inductive ROp where
  | add | sub | and | or | xor | slt | sll | sra | nor | sla
  deriving DecidableEq, Repr

/-- The members of the Immediate-type set (R91). -/
inductive IOp where
  | addi | andi | ori | xori | slti
  deriving DecidableEq, Repr

/-- The loads of the Memory-type set (R91). -/
inductive LoadOp where
  | lw | lb
  deriving DecidableEq, Repr

/-- The stores of the Memory-type set (R91). -/
inductive StoreOp where
  | sw | sb
  deriving DecidableEq, Repr

/-- The `op` field of a decoded instruction (R90): one of the twenty names of R91, by operand shape. -/
inductive Op where
  | reg   (o : ROp)
  | imm   (o : IOp)
  | load  (o : LoadOp)
  | store (o : StoreOp)
  | lui
  deriving DecidableEq, Repr

/-- The `class` field of a decoded instruction (R90): "Register-type / Immediate-type / Memory-type / Upper-type /
Unknown". -/
inductive InstrClass where
  | register | immediate | memory | upper | unknown
  deriving DecidableEq, Repr

/-- The membership sets of R91. -/
def Op.cls : Op → InstrClass
  | .reg _   => .register
  | .imm _   => .immediate
  | .load _  => .memory
  | .store _ => .memory
  | .lui     => .upper

/-- The name of an instruction (R90). -/
def Instr.op : Instr → Op
  | .add ..  => .reg .add
  | .sub ..  => .reg .sub
  | .and ..  => .reg .and
  | .or ..   => .reg .or
  | .xor ..  => .reg .xor
  | .slt ..  => .reg .slt
  | .sll ..  => .reg .sll
  | .sra ..  => .reg .sra
  | .nor ..  => .reg .nor
  | .sla ..  => .reg .sla
  | .addi .. => .imm .addi
  | .andi .. => .imm .andi
  | .ori ..  => .imm .ori
  | .xori .. => .imm .xori
  | .slti .. => .imm .slti
  | .lw ..   => .load .lw
  | .lb ..   => .load .lb
  | .sw ..   => .store .sw
  | .sb ..   => .store .sb
  | .lui ..  => .lui

/-- The `rd` field, for the classes that have one (R90). -/
def Instr.rd? : Instr → Option RegIdx
  | .add rd _ _ | .sub rd _ _ | .and rd _ _ | .or rd _ _ | .xor rd _ _ | .slt rd _ _ | .sll rd _ _ | .sra rd _ _
  | .nor rd _ _ | .sla rd _ _ => some rd
  | .addi rd _ _ | .andi rd _ _ | .ori rd _ _ | .xori rd _ _ | .slti rd _ _ => some rd
  | .lw rd _ _ | .lb rd _ _ => some rd
  | .sw _ _ _ | .sb _ _ _ => none
  | .lui rd _ => some rd

/-- The `rs1` field, for the classes that have one (R90); for class M the base-address register. -/
def Instr.rs1? : Instr → Option RegIdx
  | .add _ r _ | .sub _ r _ | .and _ r _ | .or _ r _ | .xor _ r _ | .slt _ r _ | .sll _ r _ | .sra _ r _
  | .nor _ r _ | .sla _ r _ => some r
  | .addi _ r _ | .andi _ r _ | .ori _ r _ | .xori _ r _ | .slti _ r _ => some r
  | .lw _ r _ | .lb _ r _ => some r
  | .sw _ r _ | .sb _ r _ => some r
  | .lui _ _ => none

/-- The `rs2` field, for class R and the stores (R90). -/
def Instr.rs2? : Instr → Option RegIdx
  | .add _ _ r | .sub _ _ r | .and _ _ r | .or _ _ r | .xor _ _ r | .slt _ _ r | .sll _ _ r | .sra _ _ r
  | .nor _ _ r | .sla _ _ r => some r
  | .addi _ _ _ | .andi _ _ _ | .ori _ _ _ | .xori _ _ _ | .slti _ _ _ => none
  | .lw _ _ _ | .lb _ _ _ => none
  | .sw r _ _ | .sb r _ _ => some r
  | .lui _ _ => none

/-- The `imm` field, for classes I, M and U (R90). -/
def Instr.imm? : Instr → Option Word
  | .add _ _ _ | .sub _ _ _ | .and _ _ _ | .or _ _ _ | .xor _ _ _ | .slt _ _ _ | .sll _ _ _ | .sra _ _ _
  | .nor _ _ _ | .sla _ _ _ => none
  | .addi _ _ v | .andi _ _ v | .ori _ _ v | .xori _ _ v | .slti _ _ v => some v
  | .lw _ _ v | .lb _ _ v => some v
  | .sw _ _ v | .sb _ _ v => some v
  | .lui _ v => some v

/-- What a decoder finds in a word (30_encoding.md R104): an instruction, or Unknown, with the reason by name (the three
kinds of Unknown word that R105 lists). Every Unknown word has the same effect, a no-op; the reason is the model's own (DESIGN
CHOICE, log 17). -/
inductive UnknownWhy where
  /-- `w[6:0]` is none of the five opcodes of R98. Raised by `decode`; safe: the spec's own outcome. -/
  | opcode
  /-- An unlisted `funct3`, or pair (`funct7`, `funct3`), under a used opcode. Raised by `decode`; safe. -/
  | function
  /-- A row of the optional pair that is not in `EXT_RTYPE`. Raised by `decode`; safe. -/
  | notEnabled
  deriving DecidableEq, Repr

/-- The result of `decode`, which never fails: "invalid" is the value Unknown (R104). -/
inductive Decoded where
  | instr (i : Instr)
  | unknown (why : UnknownWhy)
  deriving DecidableEq, Repr

/-- The class of what was decoded, Unknown included (R90). -/
def Decoded.cls : Decoded → InstrClass
  | .instr i   => i.op.cls
  | .unknown _ => .unknown

/-- Why a text line of a known mnemonic is refused (30_encoding.md R118): the assembler's verdicts. -/
inductive LineError where
  /-- `DecodeError.operand_count`. -/
  | operandCount
  /-- `DecodeError.register_syntax`. -/
  | registerSyntax
  /-- `DecodeError.immediate_syntax`. -/
  | immediateSyntax
  /-- `DecodeError.immediate_range`. -/
  | immediateRange
  /-- `RegisterIndexError`. -/
  | registerIndex
  deriving DecidableEq, Repr

/-- One row of the opcode table (30_encoding.md R99 to R103): a word `w` matches it when `(w & mask) = match`. -/
structure OpRow where
  op    : Op
  bits  : Word
  mask  : Word
  deriving DecidableEq, Repr

end Sys2Proof
end

