-- ==== Sys2Proof/WellFormed.lean ====
section
/-! DEFINITION. Which decoded instructions exist: an immediate that its field can hold (30_encoding.md R90, R97), and for
the optional pair, membership in `EXT_RTYPE` (R91). A register index is well formed by its type. -/

namespace Sys2Proof

/-- The range of a sign-extended 12-bit immediate: -2048 to +2047 (R97). -/
def immFits12 (imm : Word) : Bool := decide (-2048 ≤ imm.toInt) && decide (imm.toInt ≤ 2047)

/-- An Upper-type immediate is `{imm20, 0x000}` (R97). -/
def immIsUpper (imm : Word) : Bool := imm.extractLsb' 0 12 == 0#12

/-- The well-formed decoded instructions of a block with the extension set `ext`. -/
def Instr.wellFormed (ext : ExtRType) : Instr → Bool
  | .add _ _ _  => true
  | .sub _ _ _  => true
  | .and _ _ _  => true
  | .or _ _ _   => true
  | .xor _ _ _  => true
  | .slt _ _ _  => true
  | .sll _ _ _  => true
  | .sra _ _ _  => true
  | .nor _ _ _  => ext.nor
  | .sla _ _ _  => ext.sla
  | .addi _ _ v => immFits12 v
  | .andi _ _ v => immFits12 v
  | .ori _ _ v  => immFits12 v
  | .xori _ _ v => immFits12 v
  | .slti _ _ v => immFits12 v
  | .lw _ _ v   => immFits12 v
  | .lb _ _ v   => immFits12 v
  | .sw _ _ v   => immFits12 v
  | .sb _ _ v   => immFits12 v
  | .lui _ v    => immIsUpper v

/-- Whether a mnemonic is in an enabled membership set (R91). -/
def Op.enabled (ext : ExtRType) : Op → Bool
  | .reg .nor => ext.nor
  | .reg .sla => ext.sla
  | .reg .add | .reg .sub | .reg .and | .reg .or | .reg .xor | .reg .slt | .reg .sll | .reg .sra => true
  | .imm _    => true
  | .load _   => true
  | .store _  => true
  | .lui      => true

end Sys2Proof
end

