-- ==== Sys2Proof/Decode.lean ====
section
/-! DEFINITION. The binary instruction word (30_encoding.md section 3): the decoder, total on all 2^32 words (R104), and
after it the encoder (R117), written from the format and match tables R93 to R103. -/

namespace Sys2Proof

/-- `sext_N(v)` of R9: the low `n` bits of `v`, sign-extended to 32 bits. -/
def sext (n : Nat) (v : Word) : Word := (v.setWidth n).signExtend 32

/-- `zext_N(v)` of R9: the low `n` bits of `v`, zero-extended to 32 bits. -/
def zext (n : Nat) (v : Word) : Word := (v.setWidth n).setWidth 32

/-! ### The fields of a word (R93 to R96) -/

def wordOpcode (w : Word) : BitVec 7 := w.extractLsb' 0 7
def wordRd     (w : Word) : RegIdx   := w.extractLsb' 7 5
def wordFunct3 (w : Word) : BitVec 3 := w.extractLsb' 12 3
def wordRs1    (w : Word) : RegIdx   := w.extractLsb' 15 5
def wordRs2    (w : Word) : RegIdx   := w.extractLsb' 20 5
def wordFunct7 (w : Word) : BitVec 7 := w.extractLsb' 25 7

/-- The immediate of format I: `sext_12(w[31:20])` (R94, R97). -/
def wordImmI (w : Word) : Word := (w.extractLsb' 20 12).signExtend 32

/-- The immediate of format S: `sext_12({w[31:25], w[11:7]})` (R95, R97). -/
def wordImmS (w : Word) : Word := (w.extractLsb' 25 7 ++ w.extractLsb' 7 5 : BitVec 12).signExtend 32

/-- The immediate of format U: `{w[31:12], 0x000}` (R96, R97). -/
def wordImmU (w : Word) : Word := (w.extractLsb' 12 20 ++ 0#12 : BitVec 32)

/-! ### The decoder (R104) -/

/-- Opcode `0b0110011`: selected by `funct7` and `funct3` together (R99). -/
def decodeR (ext : ExtRType) (f7 : BitVec 7) (f3 : BitVec 3) (rd rs1 rs2 : RegIdx) : Decoded :=
  if f7 = 0b0000000#7 then
    if f3 = 0b000#3 then .instr (.add rd rs1 rs2)
    else if f3 = 0b001#3 then .instr (.sll rd rs1 rs2)
    else if f3 = 0b010#3 then .instr (.slt rd rs1 rs2)
    else if f3 = 0b100#3 then .instr (.xor rd rs1 rs2)
    else if f3 = 0b110#3 then .instr (.or rd rs1 rs2)
    else if f3 = 0b111#3 then .instr (.and rd rs1 rs2)
    else .unknown .function
  else if f7 = 0b0100000#7 then
    if f3 = 0b000#3 then .instr (.sub rd rs1 rs2)
    else if f3 = 0b101#3 then .instr (.sra rd rs1 rs2)
    else if f3 = 0b001#3 then (if ext.sla then .instr (.sla rd rs1 rs2) else .unknown .notEnabled)
    else if f3 = 0b110#3 then (if ext.nor then .instr (.nor rd rs1 rs2) else .unknown .notEnabled)
    else .unknown .function
  else .unknown .function

/-- Opcode `0b0010011`: selected by `funct3` alone (R100). -/
def decodeI (f3 : BitVec 3) (rd rs1 : RegIdx) (imm : Word) : Decoded :=
  if f3 = 0b000#3 then .instr (.addi rd rs1 imm)
  else if f3 = 0b010#3 then .instr (.slti rd rs1 imm)
  else if f3 = 0b100#3 then .instr (.xori rd rs1 imm)
  else if f3 = 0b110#3 then .instr (.ori rd rs1 imm)
  else if f3 = 0b111#3 then .instr (.andi rd rs1 imm)
  else .unknown .function

/-- Opcode `0b0000011`: the loads (R101). -/
def decodeLoad (f3 : BitVec 3) (rd rs1 : RegIdx) (imm : Word) : Decoded :=
  if f3 = 0b000#3 then .instr (.lb rd rs1 imm)
  else if f3 = 0b010#3 then .instr (.lw rd rs1 imm)
  else .unknown .function

/-- Opcode `0b0100011`: the stores (R102). -/
def decodeStore (f3 : BitVec 3) (rs2 rs1 : RegIdx) (imm : Word) : Decoded :=
  if f3 = 0b000#3 then .instr (.sb rs2 rs1 imm)
  else if f3 = 0b010#3 then .instr (.sw rs2 rs1 imm)
  else .unknown .function

/-- The decode function of R104, on a word presented at the instruction port: total, and every word that matches no
enabled row is Unknown, with the reason by name (R105). -/
def decode (ext : ExtRType) (w : Word) : Decoded :=
  if wordOpcode w = 0b0110011#7 then
    decodeR ext (wordFunct7 w) (wordFunct3 w) (wordRd w) (wordRs1 w) (wordRs2 w)
  else if wordOpcode w = 0b0010011#7 then decodeI (wordFunct3 w) (wordRd w) (wordRs1 w) (wordImmI w)
  else if wordOpcode w = 0b0000011#7 then decodeLoad (wordFunct3 w) (wordRd w) (wordRs1 w) (wordImmI w)
  else if wordOpcode w = 0b0100011#7 then decodeStore (wordFunct3 w) (wordRs2 w) (wordRs1 w) (wordImmS w)
  else if wordOpcode w = 0b0110111#7 then .instr (.lui (wordRd w) (wordImmU w))
  else .unknown .opcode

/-! ### The encoder (R117) -/

/-- Format R (R93). -/
def formatR (f7 : BitVec 7) (rs2 rs1 : RegIdx) (f3 : BitVec 3) (rd : RegIdx) (opcode : BitVec 7) : Word :=
  f7 ++ rs2 ++ rs1 ++ f3 ++ rd ++ opcode

/-- Format I (R94): `imm12 = imm[11:0]`. -/
def formatI (imm : Word) (rs1 : RegIdx) (f3 : BitVec 3) (rd : RegIdx) (opcode : BitVec 7) : Word :=
  imm.extractLsb' 0 12 ++ rs1 ++ f3 ++ rd ++ opcode

/-- Format S (R95): `imm12` split in two. -/
def formatS (imm : Word) (rs2 rs1 : RegIdx) (f3 : BitVec 3) (opcode : BitVec 7) : Word :=
  imm.extractLsb' 5 7 ++ rs2 ++ rs1 ++ f3 ++ imm.extractLsb' 0 5 ++ opcode

/-- Format U (R96): `imm20 = imm[31:12]`. -/
def formatU (imm : Word) (rd : RegIdx) (opcode : BitVec 7) : Word :=
  imm.extractLsb' 12 20 ++ rd ++ opcode

/-- The word of a decoded instruction (R117), with the `funct7` and `funct3` values of R99 to R103. -/
def encode : Instr → Word
  | .add rd rs1 rs2  => formatR 0b0000000#7 rs2 rs1 0b000#3 rd 0b0110011#7
  | .sub rd rs1 rs2  => formatR 0b0100000#7 rs2 rs1 0b000#3 rd 0b0110011#7
  | .sll rd rs1 rs2  => formatR 0b0000000#7 rs2 rs1 0b001#3 rd 0b0110011#7
  | .slt rd rs1 rs2  => formatR 0b0000000#7 rs2 rs1 0b010#3 rd 0b0110011#7
  | .xor rd rs1 rs2  => formatR 0b0000000#7 rs2 rs1 0b100#3 rd 0b0110011#7
  | .sra rd rs1 rs2  => formatR 0b0100000#7 rs2 rs1 0b101#3 rd 0b0110011#7
  | .or rd rs1 rs2   => formatR 0b0000000#7 rs2 rs1 0b110#3 rd 0b0110011#7
  | .and rd rs1 rs2  => formatR 0b0000000#7 rs2 rs1 0b111#3 rd 0b0110011#7
  | .sla rd rs1 rs2  => formatR 0b0100000#7 rs2 rs1 0b001#3 rd 0b0110011#7
  | .nor rd rs1 rs2  => formatR 0b0100000#7 rs2 rs1 0b110#3 rd 0b0110011#7
  | .addi rd rs1 imm => formatI imm rs1 0b000#3 rd 0b0010011#7
  | .slti rd rs1 imm => formatI imm rs1 0b010#3 rd 0b0010011#7
  | .xori rd rs1 imm => formatI imm rs1 0b100#3 rd 0b0010011#7
  | .ori rd rs1 imm  => formatI imm rs1 0b110#3 rd 0b0010011#7
  | .andi rd rs1 imm => formatI imm rs1 0b111#3 rd 0b0010011#7
  | .lb rd rs1 imm   => formatI imm rs1 0b000#3 rd 0b0000011#7
  | .lw rd rs1 imm   => formatI imm rs1 0b010#3 rd 0b0000011#7
  | .sb rs2 rs1 imm  => formatS imm rs2 rs1 0b000#3 0b0100011#7
  | .sw rs2 rs1 imm  => formatS imm rs2 rs1 0b010#3 0b0100011#7
  | .lui rd imm      => formatU imm rd 0b0110111#7

/-- The canonical Unknown word (R106). -/
def unknownWord : Word := 0x00000000#32

/-! ### The opcode table as match and mask (R99 to R103): a second statement of the encoding -/

/-- The ten rows of R99. -/
def opTableR : List OpRow :=
  [⟨.reg .add, 0x00000033#32, 0xFE00707F#32⟩, ⟨.reg .sub, 0x40000033#32, 0xFE00707F#32⟩,
   ⟨.reg .sll, 0x00001033#32, 0xFE00707F#32⟩, ⟨.reg .slt, 0x00002033#32, 0xFE00707F#32⟩,
   ⟨.reg .xor, 0x00004033#32, 0xFE00707F#32⟩, ⟨.reg .sra, 0x40005033#32, 0xFE00707F#32⟩,
   ⟨.reg .or, 0x00006033#32, 0xFE00707F#32⟩, ⟨.reg .and, 0x00007033#32, 0xFE00707F#32⟩,
   ⟨.reg .sla, 0x40001033#32, 0xFE00707F#32⟩, ⟨.reg .nor, 0x40006033#32, 0xFE00707F#32⟩]

/-- The five rows of R100. -/
def opTableI : List OpRow :=
  [⟨.imm .addi, 0x00000013#32, 0x0000707F#32⟩, ⟨.imm .slti, 0x00002013#32, 0x0000707F#32⟩,
   ⟨.imm .xori, 0x00004013#32, 0x0000707F#32⟩, ⟨.imm .ori, 0x00006013#32, 0x0000707F#32⟩,
   ⟨.imm .andi, 0x00007013#32, 0x0000707F#32⟩]

/-- The rows of R101, R102 and R103. -/
def opTableMU : List OpRow :=
  [⟨.load .lb, 0x00000003#32, 0x0000707F#32⟩, ⟨.load .lw, 0x00002003#32, 0x0000707F#32⟩,
   ⟨.store .sb, 0x00000023#32, 0x0000707F#32⟩, ⟨.store .sw, 0x00002023#32, 0x0000707F#32⟩,
   ⟨.lui, 0x00000037#32, 0x0000007F#32⟩]

/-- The twenty rows of the opcode table. -/
def opTable : List OpRow := opTableR ++ opTableI ++ opTableMU

/-- A word matches a row when `(w & mask) = match` (R99). -/
def OpRow.hits (r : OpRow) (w : Word) : Prop := w &&& r.mask = r.bits

/-! ### The host's entry point -/

/-- The instruction the decoder reads from a word of the opcode table, every row existing (`EXT_RTYPE` whole, log 2): an
instruction is 32 bits (R92), the bits above `nbits` are zero, and a longer one does not exist (log 16). -/
def decodeTableWord (nbits w : Nat) : Option Instr :=
  if nbits ≤ 32 then
    match decode ExtRType.all (BitVec.ofNat 32 (w % 2 ^ nbits)) with
    | .instr i   => some i
    | .unknown _ => none
  else none

end Sys2Proof
end

