-- ==== Sys2Proof/Machine/State.lean ====
section
/-! DEFINITION. The state of RVI-EXU as plain data: the spec's triple (x, M, W) (10_state.md R20), the parameters of the
block (00_scope.md R7), and what the host presents next (log 1). -/

namespace Sys2Proof.Machine

/-- Why the machine stops. No instruction raises an exception (60_exceptions.md R230); the one stuck state is R246's. -/
inductive Fault where
  /-- A store would make |W| exceed a finite `MEM_CAPACITY`: "the model must treat the step as stuck" (20_memory.md
  R72). Raised by `State.store` alone. Safe: the machine goes no further and no byte is written (log 7). -/
  | storageExhausted
  deriving DecidableEq, Repr

/-- Why a step is refused. No word is ever refused (60_exceptions.md R247). -/
inductive Refusal where
  /-- An instruction without a meaning in this model; raised by `exec` alone, for no instruction of this model. Safe. -/
  | notModelled (mnemonic : String)
  /-- A text line that the assembler refuses, with its reason (30_encoding.md R118). Raised by `step`, on a text line
  alone. Safe: no step takes place (log 8). -/
  | malformedLine (why : LineError)
  deriving DecidableEq, Repr

/-- The input pins of one clock cycle, sampled at its rising edge (40_step_transaction.md R140; 70_reset_and_hazards.md
R263). -/
structure Pins where
  rst        : Bool
  instrValid : Bool
  instr      : Word
  deriving DecidableEq, Repr

/-- One thing the host does, each between or at a step and none during one (10_state.md R25; R267). -/
inductive HostMove where
  /-- A clock cycle with these pins: reset, one step, or idle (R140, R263). -/
  | cycle (pins : Pins)
  /-- A text line presented at the document's own level, `step(instruction_text)` (R6, R141). -/
  | line (text : List Char)
  /-- A host write to a register between two steps (R25). -/
  | writeReg (i : RegIdx) (v : Word)
  deriving DecidableEq, Repr

/-- The byte memory `M`: the cells that do not hold what an unlisted address reads as, by rising address (log 6). -/
abbrev Memory := List Host.Cell

/-- The whole state. -/
structure State where
  /-- `x`, the register file (R20, R21); entry 0 is hardwired (R22). -/
  regs    : Vector Word 32
  /-- `M`, the byte memory (R32). -/
  mem     : Memory
  /-- `W`, the written set (R33), without repeats, newest first (log 5). -/
  written : List Addr
  /-- The parameters of the block, which no step changes (R7, R30; log 2). -/
  cfg     : Config
  /-- What the host does next, the model's own field (log 1). -/
  host    : List HostMove
  deriving DecidableEq, Repr

/-- The state after reset, before the first step (10_state.md R36), for a configuration and a `REG_INIT` (R26; the entry
for index 0 is not used). The host has presented nothing yet (log 4). -/
def State.resetWith (cfg : Config) (regInit : Vector Word 32) : State :=
  { regs := regInit.set 0 0#32, mem := [], written := [], cfg := cfg, host := [] }

/-- The state after reset with the default parameters of R7. `REG_INIT` has no default; here it is zero (DESIGN CHOICE,
log 3). -/
def State.reset : State := State.resetWith Config.default (Vector.replicate 32 0#32)

end Sys2Proof.Machine
end

