-- ==== Sys2Proof/Machine/Ops.lean ====
section
/-! DEFINITION. The named operations over registers and memory: register reads and writes (10_state.md R22), `MemRead` and
`MemWrite` (20_memory.md R56, R57), the capacity of the sparse store (R72), the reset of the memory (R261). RVI-EXU takes
no exception and returns from none (60_exceptions.md R230, R234, R235), so no such operation stands here. -/

namespace Sys2Proof.Machine

/-! ### Registers -/

/-- `x[i]` (R9): register 0 reads as zero (R22). -/
def State.readReg (s : State) (i : RegIdx) : Word :=
  if i = 0#5 then 0#32 else s.regs[i.toNat]'i.isLt

/-- `x[i] <- v` (R9): a write to register 0 has no effect (R22). -/
def State.writeReg (s : State) (i : RegIdx) (v : Word) : State :=
  if i = 0#5 then s else { s with regs := s.regs.set i.toNat v i.isLt }

/-- The commit of a step that has a destination register (40_step_transaction.md R144). -/
def State.commit (s : State) (rd : RegIdx) (v : Word) : Host.Outcome State Fault Refusal :=
  .next (s.writeReg rd v)

/-! ### The byte memory as canonical data (log 6) -/

/-- What an address never stored to reads as (R34, R36). -/
def Memory.unlisted : Byte := 0x00#8

/-- `M[a]`. -/
def Memory.read : Memory → Nat → Byte
  | [], _ => Memory.unlisted
  | c :: m, a => if a = c.1 then c.2 else Memory.read m a

/-- Lists a cell unless it holds what an unlisted address reads as. -/
def Memory.list (a : Nat) (b : Byte) (m : Memory) : Memory :=
  if b = Memory.unlisted then m else (a, b) :: m

/-- `M[a] <- b`, keeping the canonical form. -/
def Memory.write : Memory → Nat → Byte → Memory
  | [], a, b => Memory.list a b []
  | c :: m, a, b =>
    if a < c.1 then Memory.list a b (c :: m)
    else if a = c.1 then Memory.list a b m
    else c :: Memory.write m a b

/-- The canonical form: addresses strictly rising, each a 32-bit pattern, no cell holding what an unlisted address reads
as. -/
abbrev Memory.wf (m : Memory) : Prop :=
  m.Pairwise (fun c d => c.1 < d.1) ∧ ∀ c ∈ m, c.1 < 2 ^ 32 ∧ c.2 ≠ Memory.unlisted

/-! ### Memory accesses -/

/-- The two access widths (R55). -/
inductive Width where
  | byte | word
  deriving DecidableEq, Repr

/-- The number of bytes `n` of `MemRead` and `MemWrite`. -/
def Width.bytes : Width → Nat
  | .byte => 1
  | .word => 4

/-- `M[a]`, one cell of the machine; the value of the inspection port `memory_get` (R60). -/
def State.memoryGet (s : State) (a : Addr) : Byte := s.mem.read a.toNat

/-- `MemRead(addr, 1)` (R56). -/
def State.memRead1 (s : State) (addr : Addr) : Byte := s.memoryGet addr

/-- `MemRead(addr, 4)` (R56): little-endian, each address modulo 2^32 (R51, R54). -/
def State.memRead4 (s : State) (addr : Addr) : Word :=
  s.memoryGet (addr + 3#32) ++ s.memoryGet (addr + 2#32) ++ s.memoryGet (addr + 1#32) ++ s.memoryGet addr

/-- `M[a] <- b; W <- W ∪ {a}`: the document's `put(a, b)` (R69). A new address joins at the front (R66, log 5). -/
def State.storeCell (s : State) (a : Addr) (b : Byte) : State :=
  { s with mem := s.mem.write a.toNat b, written := s.written.insert a }

/-- `MemWrite(addr, n, v)` (R57): for `k` from 0 to `n-1`, cell `(addr + k) mod 2^32` receives `v[8k+7:8k]`. -/
def State.memWrite (s : State) (addr : Addr) (n : Width) (v : Word) : State :=
  (List.range n.bytes).foldl (fun s k => s.storeCell (addr + BitVec.ofNat 32 k) (v.extractLsb' (8 * k) 8)) s

/-- Whether the sparse store can hold `|W|` entries (R72). -/
def Config.holds (cfg : Config) (entries : Nat) : Bool :=
  match cfg.memCapacity with
  | none   => true
  | some c => decide (entries ≤ c)

/-- A store instruction's access: `MemWrite`, or stuck, with nothing written, when the store would make `|W|` exceed
`MEM_CAPACITY` (R72: neither a no-op nor a partial write; R147; log 7). -/
def State.store (s : State) (addr : Addr) (n : Width) (v : Word) : Host.Outcome State Fault Refusal :=
  let t := s.memWrite addr n v
  if Config.holds s.cfg t.written.length then .next t else .fault .storageExhausted

/-! ### Reset -/

/-- The effect of the reset signal (70_reset_and_hazards.md R261): memory and `W` empty, x1 to x31 unchanged. -/
def State.applyReset (s : State) : State := { s with mem := [], written := [] }

end Sys2Proof.Machine
end

