-- ==== Sys2Proof/Machine/Operands.lean ====
section
/-! DEFINITION. The operand forms: two source registers (41_register_type.md), a source register and an immediate
(42_immediate_type.md R180), base plus offset (43_memory_type.md R200), the shift amount (41_register_type.md R171). -/

namespace Sys2Proof.Machine

/-- Class R: the result of `f` on source1 and source2, both read before the destination is written (R143). -/
def State.regForm (s : State) (f : Word → Word → Word) (rd rs1 rs2 : RegIdx) : Host.Outcome State Fault Refusal :=
  s.commit rd (f (s.readReg rs1) (s.readReg rs2))

/-- Class I: the same operator with the sign-extended immediate as second operand (R180). -/
def State.immForm (s : State) (f : Word → Word → Word) (rd rs1 : RegIdx) (imm : Word) :
    Host.Outcome State Fault Refusal :=
  s.commit rd (f (s.readReg rs1) imm)

/-- The one addressing mode: `addr = x[rs1] + imm`, modulo 2^32 (R200). -/
def State.effAddr (s : State) (rs1 : RegIdx) (imm : Word) : Addr := s.readReg rs1 + imm

/-- The shift amount: the low five bits of source2, read as unsigned (R171; log 14). -/
def shamt (source2 : Word) : Nat := (source2.extractLsb' 0 5).toNat

end Sys2Proof.Machine
end

