-- ==== Sys2Proof/Machine/Flags.lean ====
section
/-! DEFINITION. RVI-EXU has no status flag, condition code or predicate register (10_state.md R29): no instruction records
carry, overflow, zero or sign. What other machines hold in flags, this one computes into a general register: the results
of a comparison and of a test for zero. -/

namespace Sys2Proof.Machine

/-- A truth value as a register value. -/
def boolWord (b : Bool) : Word := if b then 0x00000001#32 else 0x00000000#32

/-- `lt_s(a, b)` (R9): 1 when `signed(a) < signed(b)`, else 0. -/
def ltS (a b : Word) : Word := boolWord (a.slt b)

/-- The operation of `nor` (41_register_type.md R169): the logical NOT of OR, "NOT a bitwise NOR". -/
def norLogical (a b : Word) : Word := boolWord ((a ||| b) == 0x00000000#32)

end Sys2Proof.Machine
end

