-- ==== Sys2Proof/Machine/ImmediateType.lean ====
section
/-! DEFINITION. The Immediate-type instructions (42_immediate_type.md): each is its Register-type namesake with `x[rs2]`
replaced by the sign-extended immediate, for the logical operations too (R180). -/

namespace Sys2Proof.Machine

/-- `addi` (R181). -/
def execAddi (rd rs1 : RegIdx) (imm : Word) (s : State) : Host.Outcome State Fault Refusal :=
  s.immForm (fun a b => a + b) rd rs1 imm

/-- `andi` (R182). -/
def execAndi (rd rs1 : RegIdx) (imm : Word) (s : State) : Host.Outcome State Fault Refusal :=
  s.immForm (fun a b => a &&& b) rd rs1 imm

/-- `ori` (R183). -/
def execOri (rd rs1 : RegIdx) (imm : Word) (s : State) : Host.Outcome State Fault Refusal :=
  s.immForm (fun a b => a ||| b) rd rs1 imm

/-- `xori` (R184). -/
def execXori (rd rs1 : RegIdx) (imm : Word) (s : State) : Host.Outcome State Fault Refusal :=
  s.immForm (fun a b => a ^^^ b) rd rs1 imm

/-- `slti` (R185): a signed comparison on both sides. -/
def execSlti (rd rs1 : RegIdx) (imm : Word) (s : State) : Host.Outcome State Fault Refusal :=
  s.immForm ltS rd rs1 imm

end Sys2Proof.Machine
end

