-- ==== Sys2Proof/Machine/MemoryType.lean ====
section
/-! DEFINITION. The Memory-type instructions, loads and stores (43_memory_type.md). No access faults or is refused for its
address (R206); a store is stuck only under a finite `MEM_CAPACITY` (20_memory.md R72). -/

namespace Sys2Proof.Machine

/-- `lw` (R201). -/
def execLw (rd rs1 : RegIdx) (imm : Word) (s : State) : Host.Outcome State Fault Refusal :=
  s.commit rd (s.memRead4 (s.effAddr rs1 imm))

/-- `lb` (R202): sign-extended from bit 7. -/
def execLb (rd rs1 : RegIdx) (imm : Word) (s : State) : Host.Outcome State Fault Refusal :=
  s.commit rd ((s.memRead1 (s.effAddr rs1 imm)).signExtend 32)

/-- `sw` (R203): the four bytes of `x[rs2]`, little-endian. -/
def execSw (rs2 rs1 : RegIdx) (imm : Word) (s : State) : Host.Outcome State Fault Refusal :=
  s.store (s.effAddr rs1 imm) .word (s.readReg rs2)

/-- `sb` (R204): the low byte of `x[rs2]`. -/
def execSb (rs2 rs1 : RegIdx) (imm : Word) (s : State) : Host.Outcome State Fault Refusal :=
  s.store (s.effAddr rs1 imm) .byte (s.readReg rs2)

end Sys2Proof.Machine
end

