-- ==== Sys2Proof/Machine/RegisterType.lean ====
section
/-! DEFINITION. The Register-type instructions (41_register_type.md). Addition and subtraction are modulo 2^32 (R160). -/

namespace Sys2Proof.Machine

/-- `add` (R161). -/
def execAdd (rd rs1 rs2 : RegIdx) (s : State) : Host.Outcome State Fault Refusal :=
  s.regForm (fun a b => a + b) rd rs1 rs2

/-- `sub` (R162). -/
def execSub (rd rs1 rs2 : RegIdx) (s : State) : Host.Outcome State Fault Refusal :=
  s.regForm (fun a b => a - b) rd rs1 rs2

/-- `and` (R163). -/
def execAnd (rd rs1 rs2 : RegIdx) (s : State) : Host.Outcome State Fault Refusal :=
  s.regForm (fun a b => a &&& b) rd rs1 rs2

/-- `or` (R164). -/
def execOr (rd rs1 rs2 : RegIdx) (s : State) : Host.Outcome State Fault Refusal :=
  s.regForm (fun a b => a ||| b) rd rs1 rs2

/-- `xor` (R165). -/
def execXor (rd rs1 rs2 : RegIdx) (s : State) : Host.Outcome State Fault Refusal :=
  s.regForm (fun a b => a ^^^ b) rd rs1 rs2

/-- `slt` (R166): a signed comparison. -/
def execSlt (rd rs1 rs2 : RegIdx) (s : State) : Host.Outcome State Fault Refusal :=
  s.regForm ltS rd rs1 rs2

/-- `sll` (R167): a logical left shift by `x[rs2][4:0]` (R171). -/
def execSll (rd rs1 rs2 : RegIdx) (s : State) : Host.Outcome State Fault Refusal :=
  s.regForm (fun a b => a <<< shamt b) rd rs1 rs2

/-- `sra` (R168): an arithmetic right shift by `x[rs2][4:0]` (R171). -/
def execSra (rd rs1 rs2 : RegIdx) (s : State) : Host.Outcome State Fault Refusal :=
  s.regForm (fun a b => a.sshiftRight (shamt b)) rd rs1 rs2

/-- `nor` (R169), reached only when it is in `EXT_RTYPE` (R104). -/
def execNor (rd rs1 rs2 : RegIdx) (s : State) : Host.Outcome State Fault Refusal :=
  s.regForm norLogical rd rs1 rs2

/-- `sla` (R170), reached only when it is in `EXT_RTYPE` (R104): the operation of `sll`. -/
def execSla (rd rs1 rs2 : RegIdx) (s : State) : Host.Outcome State Fault Refusal :=
  s.regForm (fun a b => a <<< shamt b) rd rs1 rs2

end Sys2Proof.Machine
end

