-- ==== Sys2Proof/Machine/UpperType.lean ====
section
/-! DEFINITION. The Upper-type instruction (44_upper_type.md). -/

namespace Sys2Proof.Machine

/-- `lui` (R220): the immediate, already `{imm20, 0x000}` (30_encoding.md R97), written to the destination. -/
def execLui (rd : RegIdx) (imm : Word) (s : State) : Host.Outcome State Fault Refusal :=
  s.commit rd imm

end Sys2Proof.Machine
end

