-- ==== Sys2Proof/Machine/Assembler.lean ====
section
/-! DEFINITION. The text level (30_encoding.md section 4): from a text line to a decoded instruction, to Unknown, or to a
named refusal (R109 to R119), and the canonical spelling of an instruction (R121). -/

namespace Sys2Proof.Machine

/-! ### Mnemonics (R91, R110, R111) -/

def ROp.text : ROp → List Char
  | .add => ['a', 'd', 'd']
  | .sub => ['s', 'u', 'b']
  | .and => ['a', 'n', 'd']
  | .or  => ['o', 'r']
  | .xor => ['x', 'o', 'r']
  | .slt => ['s', 'l', 't']
  | .sll => ['s', 'l', 'l']
  | .sra => ['s', 'r', 'a']
  | .nor => ['n', 'o', 'r']
  | .sla => ['s', 'l', 'a']

def IOp.text : IOp → List Char
  | .addi => ['a', 'd', 'd', 'i']
  | .andi => ['a', 'n', 'd', 'i']
  | .ori  => ['o', 'r', 'i']
  | .xori => ['x', 'o', 'r', 'i']
  | .slti => ['s', 'l', 't', 'i']

def LoadOp.text : LoadOp → List Char
  | .lw => ['l', 'w']
  | .lb => ['l', 'b']

def StoreOp.text : StoreOp → List Char
  | .sw => ['s', 'w']
  | .sb => ['s', 'b']

/-- The mnemonic of an instruction name (R91), lower case (D19). -/
def Op.text : Op → List Char
  | .reg o   => ROp.text o
  | .imm o   => IOp.text o
  | .load o  => LoadOp.text o
  | .store o => StoreOp.text o
  | .lui     => ['l', 'u', 'i']

/-- The four membership sets of R91, the optional pair included. -/
def membershipSets : List Op :=
  [.reg .add, .reg .sub, .reg .and, .reg .or, .reg .xor, .reg .slt, .reg .sll, .reg .sra, .reg .nor, .reg .sla,
   .imm .addi, .imm .andi, .imm .ori, .imm .xori, .imm .slti,
   .load .lw, .load .lb, .store .sw, .store .sb, .lui]

/-- Phase 2, classification: exact string equality in the enabled sets; none is Unknown (R111). -/
def classify (ext : ExtRType) (mnemonic : List Char) : Option Op :=
  membershipSets.find? (fun o => o.enabled ext && Op.text o == mnemonic)

/-- Phase 1: the characters before the first space, which are the mnemonic (R110). -/
def lineMnemonic : List Char → List Char
  | []      => []
  | c :: cs => if c = ' ' then [] else c :: lineMnemonic cs

/-- Phase 1: everything after the first space, the operand tail; empty where there is no space (R110). -/
def lineTail : List Char → List Char
  | []      => []
  | c :: cs => if c = ' ' then cs else lineTail cs

/-! ### Tokens (R112) -/

/-- The delimiter set of a class: comma and space, and parentheses for class M only (R112, D19). -/
def isDelimiter (cls : InstrClass) (c : Char) : Bool :=
  match cls with
  | .memory => c == ',' || c == ' ' || c == '(' || c == ')'
  | .register | .immediate | .upper | .unknown => c == ',' || c == ' '

/-- A token before the tokens that follow it; an empty token is skipped (R112). -/
def consToken (token : List Char) (rest : List (List Char)) : List (List Char) :=
  if token = [] then rest else token :: rest

/-- Phase 3: the tokens of a tail, `current` being the token read so far. -/
def tokensFrom (isDelim : Char → Bool) : List Char → List Char → List (List Char)
  | current, []      => consToken current []
  | current, c :: cs =>
    if isDelim c then consToken current (tokensFrom isDelim [] cs) else tokensFrom isDelim (current ++ [c]) cs

/-- Phase 3: the operand tokens of a tail (R112). -/
def tokens (cls : InstrClass) (tail : List Char) : List (List Char) := tokensFrom (isDelimiter cls) [] tail

/-! ### Register tokens (R113) -/

def decDigit? (c : Char) : Option Nat :=
  if '0' ≤ c ∧ c ≤ '9' then some (c.toNat - '0'.toNat) else none

/-- An index that names a register, 0 to 31; 32 to 99 is a `RegisterIndexError` (R113, R118). -/
def regOfIndex (n : Nat) : Except LineError RegIdx :=
  if n < 32 then .ok (BitVec.ofNat 5 n) else .error .registerIndex

/-- Phase 4: the letter `x` and one or two decimal digits (R113). -/
def parseReg : List Char → Except LineError RegIdx
  | ['x', d] =>
    match decDigit? d with
    | some n => regOfIndex n
    | none   => .error .registerSyntax
  | ['x', d, e] =>
    match decDigit? d, decDigit? e with
    | some m, some n => regOfIndex (10 * m + n)
    | _, _           => .error .registerSyntax
  | _ => .error .registerSyntax

/-! ### Immediate tokens (R114) -/

def hexDigit? (c : Char) : Option Nat :=
  if '0' ≤ c ∧ c ≤ '9' then some (c.toNat - '0'.toNat)
  else if 'a' ≤ c ∧ c ≤ 'f' then some (c.toNat - 'a'.toNat + 10)
  else if 'A' ≤ c ∧ c ≤ 'F' then some (c.toNat - 'A'.toNat + 10)
  else none

/-- The value of a run of digits in a base, after the value `acc` of the digits before it. -/
def digitsValue (base : Nat) (digit? : Char → Option Nat) : Nat → List Char → Option Nat
  | acc, []      => some acc
  | acc, c :: cs =>
    match digit? c with
    | some d => digitsValue base digit? (base * acc + d) cs
    | none   => none

/-- A literal without its sign: `0x` or `0X` and hexadecimal digits, or decimal digits that do not start with `0` (R114).
The token `0` is not read here. -/
def parseMagnitude : List Char → Option Nat
  | []                  => none
  | '0' :: 'x' :: h :: hs => digitsValue 16 hexDigit? 0 (h :: hs)
  | '0' :: 'X' :: h :: hs => digitsValue 16 hexDigit? 0 (h :: hs)
  | c :: cs             => if c = '0' then none else digitsValue 10 decDigit? 0 (c :: cs)

/-- The integer a literal denotes: `0` alone, or an optional `-` and a magnitude (R114). `-0` is no literal (log 9). -/
def parseLiteral : List Char → Option Int
  | ['0']     => some 0
  | '-' :: cs => (parseMagnitude cs).map (fun n => -(n : Int))
  | cs        => (parseMagnitude cs).map (fun n => (n : Int))

/-- Phase 5: an immediate token's value, syntax before range; a value outside -2^31 .. 2^32-1 is refused (R114). -/
def parseImm (token : List Char) : Except LineError Int :=
  match parseLiteral token with
  | none   => .error .immediateSyntax
  | some v => if -2 ^ 31 ≤ v ∧ v ≤ 2 ^ 32 - 1 then .ok v else .error .immediateRange

/-- The immediate operand of classes I and M: `sext_12` of `imm12 = v mod 2^12` (R97, R116). -/
def literalImm12 (v : Int) : Word := (BitVec.ofInt 12 v).signExtend 32

/-- The immediate operand of class U: `{imm20, 0x000}` with `imm20 = v mod 2^20` (R97, R116). -/
def literalImm20 (v : Int) : Word := (BitVec.ofInt 20 v ++ 0#12 : BitVec 32)

/-! ### From tokens to the decoded instruction (R115, R116) -/

def ROp.instr (rd rs1 rs2 : RegIdx) : ROp → Instr
  | .add => .add rd rs1 rs2
  | .sub => .sub rd rs1 rs2
  | .and => .and rd rs1 rs2
  | .or  => .or rd rs1 rs2
  | .xor => .xor rd rs1 rs2
  | .slt => .slt rd rs1 rs2
  | .sll => .sll rd rs1 rs2
  | .sra => .sra rd rs1 rs2
  | .nor => .nor rd rs1 rs2
  | .sla => .sla rd rs1 rs2

def IOp.instr (rd rs1 : RegIdx) (imm : Word) : IOp → Instr
  | .addi => .addi rd rs1 imm
  | .andi => .andi rd rs1 imm
  | .ori  => .ori rd rs1 imm
  | .xori => .xori rd rs1 imm
  | .slti => .slti rd rs1 imm

def LoadOp.instr (rd rs1 : RegIdx) (imm : Word) : LoadOp → Instr
  | .lw => .lw rd rs1 imm
  | .lb => .lb rd rs1 imm

def StoreOp.instr (rs2 rs1 : RegIdx) (imm : Word) : StoreOp → Instr
  | .sw => .sw rs2 rs1 imm
  | .sb => .sb rs2 rs1 imm

/-- The operands of a known mnemonic: the count first, then the tokens from left to right (R115, R118, R233). -/
def parseOperands (o : Op) (ts : List (List Char)) : Except LineError Instr :=
  match o, ts with
  | .reg r, [t1, t2, t3] => do
      let rd ← parseReg t1
      let rs1 ← parseReg t2
      let rs2 ← parseReg t3
      pure (ROp.instr rd rs1 rs2 r)
  | .imm r, [t1, t2, t3] => do
      let rd ← parseReg t1
      let rs1 ← parseReg t2
      let v ← parseImm t3
      pure (IOp.instr rd rs1 (literalImm12 v) r)
  | .load r, [t1, t2, t3] => do
      let rd ← parseReg t1
      let v ← parseImm t2
      let rs1 ← parseReg t3
      pure (LoadOp.instr rd rs1 (literalImm12 v) r)
  | .store r, [t1, t2, t3] => do
      let rs2 ← parseReg t1
      let v ← parseImm t2
      let rs1 ← parseReg t3
      pure (StoreOp.instr rs2 rs1 (literalImm12 v) r)
  | .lui, [t1, t2] => do
      let rd ← parseReg t1
      let v ← parseImm t2
      pure (.lui rd (literalImm20 v))
  | .reg _, _ | .imm _, _ | .load _, _ | .store _, _ | .lui, _ => .error .operandCount

/-- What the assembler makes of a text line (R116, R118, R119). -/
inductive Assembled where
  | instr (i : Instr)
  | unknown
  | malformed (why : LineError)
  deriving DecidableEq, Repr

/-- From a text line to a decoded instruction (R116). An Unknown line's tail is never examined (R111). -/
def assemble (ext : ExtRType) (line : List Char) : Assembled :=
  match classify ext (lineMnemonic line) with
  | none   => .unknown
  | some o =>
    match parseOperands o (tokens o.cls (lineTail line)) with
    | .ok i    => .instr i
    | .error e => .malformed e

/-- The word the assembler emits: an instruction's (R117), `UNKNOWN_WORD` for an Unknown line (R119), none for a line it
refuses (R118). -/
def assembleWord (ext : ExtRType) (line : List Char) : Option Word :=
  match assemble ext line with
  | .instr i     => some (encode i)
  | .unknown     => some unknownWord
  | .malformed _ => none

/-! ### The printer (R121) -/

def digitChar (d : Nat) : Char := Char.ofNat (48 + d)

/-- A natural number below 10^10 in decimal, without leading zero; the fuel is the number of digits at most. -/
def printNatFuel : Nat → Nat → List Char
  | 0, _        => []
  | fuel + 1, n => if n < 10 then [digitChar n] else printNatFuel fuel (n / 10) ++ [digitChar (n % 10)]

def printNat (n : Nat) : List Char := printNatFuel 10 n

def printReg (r : RegIdx) : List Char := 'x' :: printNat r.toNat

/-- Signed decimal, for the immediates of classes I and M. -/
def printInt (v : Int) : List Char := if v < 0 then '-' :: printNat v.natAbs else printNat v.natAbs

def printSep : List Char := [',', ' ']

def printR (o : ROp) (rd rs1 rs2 : RegIdx) : List Char :=
  ROp.text o ++ ' ' :: (printReg rd ++ printSep ++ printReg rs1 ++ printSep ++ printReg rs2)

def printI (o : IOp) (rd rs1 : RegIdx) (imm : Word) : List Char :=
  IOp.text o ++ ' ' :: (printReg rd ++ printSep ++ printReg rs1 ++ printSep ++ printInt imm.toInt)

/-- A memory operand as `v(xA)`. -/
def printMemOperand (rs1 : RegIdx) (imm : Word) : List Char := printInt imm.toInt ++ '(' :: (printReg rs1 ++ [')'])

/-- The canonical spelling of a decoded instruction (R121). -/
def printInstr : Instr → List Char
  | .add rd rs1 rs2  => printR .add rd rs1 rs2
  | .sub rd rs1 rs2  => printR .sub rd rs1 rs2
  | .and rd rs1 rs2  => printR .and rd rs1 rs2
  | .or rd rs1 rs2   => printR .or rd rs1 rs2
  | .xor rd rs1 rs2  => printR .xor rd rs1 rs2
  | .slt rd rs1 rs2  => printR .slt rd rs1 rs2
  | .sll rd rs1 rs2  => printR .sll rd rs1 rs2
  | .sra rd rs1 rs2  => printR .sra rd rs1 rs2
  | .nor rd rs1 rs2  => printR .nor rd rs1 rs2
  | .sla rd rs1 rs2  => printR .sla rd rs1 rs2
  | .addi rd rs1 imm => printI .addi rd rs1 imm
  | .andi rd rs1 imm => printI .andi rd rs1 imm
  | .ori rd rs1 imm  => printI .ori rd rs1 imm
  | .xori rd rs1 imm => printI .xori rd rs1 imm
  | .slti rd rs1 imm => printI .slti rd rs1 imm
  | .lw rd rs1 imm   => LoadOp.text .lw ++ ' ' :: (printReg rd ++ printSep ++ printMemOperand rs1 imm)
  | .lb rd rs1 imm   => LoadOp.text .lb ++ ' ' :: (printReg rd ++ printSep ++ printMemOperand rs1 imm)
  | .sw rs2 rs1 imm  => StoreOp.text .sw ++ ' ' :: (printReg rs2 ++ printSep ++ printMemOperand rs1 imm)
  | .sb rs2 rs1 imm  => StoreOp.text .sb ++ ' ' :: (printReg rs2 ++ printSep ++ printMemOperand rs1 imm)
  | .lui rd imm      => Op.text .lui ++ ' ' :: (printReg rd ++ printSep ++ printNat (imm.toNat / 2 ^ 12))

end Sys2Proof.Machine
end

