-- ==== Sys2Proof/Machine/Fetch.lean ====
section
/-! DEFINITION. Where an instruction comes from. RVI-EXU has no program counter and fetches nothing from memory (10_state.md
R28; 20_memory.md R76): the host presents each instruction (40_step_transaction.md R140). So a step takes the host's next
move and says what it asks for. -/

namespace Sys2Proof.Machine

/-- What the host's next move asks of the block. -/
inductive Fetched where
  /-- Execute this instruction in this state. -/
  | run (i : Instr) (s : State)
  /-- No instruction is executed; this is the state after the move. -/
  | settled (s : State)
  /-- A text line that the assembler refuses (30_encoding.md R118). -/
  | malformed (why : LineError)
  deriving DecidableEq, Repr

/-- A presented word (R141): an instruction is executed, an Unknown word is a no-op (R105, R145). -/
def fetchWord (w : Word) (s : State) : Fetched :=
  match decode s.cfg.ext w with
  | .instr i   => .run i s
  | .unknown _ => .settled s

/-- A clock cycle: `rst` first, with `instr_valid` ignored (70_reset_and_hazards.md R263); then one step with the word on
the port when `instr_valid = 1`; else nothing (R140). -/
def fetchCycle (p : Pins) (s : State) : Fetched :=
  if p.rst then .settled s.applyReset
  else if p.instrValid then fetchWord p.instr s
  else .settled s

/-- A presented text line (R141): executed over its decoded form (log 13), a no-op when Unknown (R119), refused when malformed
(R118). -/
def fetchLine (text : List Char) (s : State) : Fetched :=
  match assemble s.cfg.ext text with
  | .instr i     => .run i s
  | .unknown     => .settled s
  | .malformed e => .malformed e

/-- One host move, in the state in which it has been taken from the list. -/
def fetchMove (m : HostMove) (s : State) : Fetched :=
  match m with
  | .cycle p      => fetchCycle p s
  | .line text    => fetchLine text s
  | .writeReg i v => .settled (s.writeReg i v)

/-- The host's next move, taken from the list; when the host presents no more, the block is idle (R150; 60_exceptions.md
R245). -/
def fetch (s : State) : Fetched :=
  match s.host with
  | []        => .settled s
  | m :: rest => fetchMove m { s with host := rest }

/-- A cycle that presents a word to execute. -/
def presentWord (w : Word) : HostMove := .cycle { rst := false, instrValid := true, instr := w }

/-- The extension set in which the rows of the opcode table that a word matches exist (R91; log 2): a `nor` or `sla` word
needs its mnemonic in `EXT_RTYPE`. Any other word needs nothing. -/
def ExtRType.withRowOf (ext : ExtRType) (w : Word) : ExtRType :=
  match decode ExtRType.all w with
  | .instr (.nor _ _ _) => { ext with nor := true }
  | .instr (.sla _ _ _) => { ext with sla := true }
  | .instr _            => ext
  | .unknown _          => ext

end Sys2Proof.Machine
end

