-- ==== Sys2Proof/Machine/Step.lean ====
section
/-! DEFINITION. One step (40_step_transaction.md R141): the host's next move is taken, and the instruction it presents, if
any, is executed. -/

namespace Sys2Proof.Machine

/-- The step. It answers a fault only for R72's capacity, and a refusal only for a malformed text line (60_exceptions.md
R247). -/
def step (s : State) : Host.Outcome State Fault Refusal :=
  match fetch s with
  | .run i s'    => exec i s'
  | .settled s'  => .next s'
  | .malformed e => .refused (.malformedLine e)

/-- The state in which the host presents the instruction word `w` next (log 4): the word stands first in the host's moves.
Where the word is a row of the optional pair, the block is one that has that row (log 2); nothing else changes. -/
def State.withFetchWord (s : State) (nbits w : Nat) : State :=
  let word := BitVec.ofNat 32 (w % 2 ^ nbits)
  { s with
    host := presentWord word :: s.host
    cfg  := { s.cfg with ext := ExtRType.withRowOf s.cfg.ext word } }

end Sys2Proof.Machine
end

