-- ==== Sys2Proof/Machine/Ports.lean ====
section
/-! DEFINITION. The register-file ports of a step (10_state.md R24, R27) and the inspection port (20_memory.md R60), as
functions of the state before the step: "Reads are combinational and see the value before the step's write". No rule
about values depends on them (log 10). -/

namespace Sys2Proof.Machine

/-- The seven signals of the register-file side of one step (R27): `rf_raddr_a`, `rf_rdata_a`, `rf_raddr_b`, `rf_rdata_b`,
`rf_we`, `rf_waddr`, `rf_wdata`. A read address and its data are absent where the step reads no register there (R24); the
write address and data are absent where `rf_we = 0` (log 10). -/
structure RfPorts where
  raddrA : Option RegIdx
  rdataA : Option Word
  raddrB : Option RegIdx
  rdataB : Option Word
  we     : Bool
  waddr  : Option RegIdx
  wdata  : Option Word
  deriving DecidableEq, Repr

/-- Neither a read nor a write: an Unknown step (R24), and a cycle without a step. -/
def RfPorts.idle : RfPorts :=
  { raddrA := none, rdataA := none, raddrB := none, rdataB := none, we := false, waddr := none, wdata := none }

/-- The data that the register file returns for a read address; its index 0 reads as zero (R22). -/
def State.rfRead (s : State) (raddr : Option RegIdx) : Option Word := raddr.map s.readReg

/-- The result an instruction gives its destination register, where it has one (R24), from the two read ports and, for a
load, the memory. -/
def State.result? (s : State) : Instr → Option Word
  | .add _ rs1 rs2  => some (s.readReg rs1 + s.readReg rs2)
  | .sub _ rs1 rs2  => some (s.readReg rs1 - s.readReg rs2)
  | .and _ rs1 rs2  => some (s.readReg rs1 &&& s.readReg rs2)
  | .or _ rs1 rs2   => some (s.readReg rs1 ||| s.readReg rs2)
  | .xor _ rs1 rs2  => some (s.readReg rs1 ^^^ s.readReg rs2)
  | .slt _ rs1 rs2  => some (ltS (s.readReg rs1) (s.readReg rs2))
  | .sll _ rs1 rs2  => some (s.readReg rs1 <<< shamt (s.readReg rs2))
  | .sra _ rs1 rs2  => some ((s.readReg rs1).sshiftRight (shamt (s.readReg rs2)))
  | .nor _ rs1 rs2  => some (norLogical (s.readReg rs1) (s.readReg rs2))
  | .sla _ rs1 rs2  => some (s.readReg rs1 <<< shamt (s.readReg rs2))
  | .addi _ rs1 imm => some (s.readReg rs1 + imm)
  | .andi _ rs1 imm => some (s.readReg rs1 &&& imm)
  | .ori _ rs1 imm  => some (s.readReg rs1 ||| imm)
  | .xori _ rs1 imm => some (s.readReg rs1 ^^^ imm)
  | .slti _ rs1 imm => some (ltS (s.readReg rs1) imm)
  | .lw _ rs1 imm   => some (s.memRead4 (s.effAddr rs1 imm))
  | .lb _ rs1 imm   => some ((s.memRead1 (s.effAddr rs1 imm)).signExtend 32)
  | .sw _ _ _       => none
  | .sb _ _ _       => none
  | .lui _ imm      => some imm

/-- The write address that an instruction drives: `rd`, where it has one other than 0 (R27). -/
def rfWaddr? (i : Instr) : Option RegIdx := i.rd?.filter (fun rd => rd != 0#5)

/-- The ports of the step on an instruction: port A carries `rs1`, port B `rs2`, the write port `rd`, with `rf_we = 1` exactly
for the instructions that write a register and `rd != 0` (R27). -/
def rfPorts (i : Instr) (s : State) : RfPorts :=
  { raddrA := i.rs1?
    rdataA := s.rfRead i.rs1?
    raddrB := i.rs2?
    rdataB := s.rfRead i.rs2?
    we     := (rfWaddr? i).isSome
    waddr  := rfWaddr? i
    wdata  := if (rfWaddr? i).isSome then s.result? i else none }

/-- The ports of the step that `step` performs next: those of the instruction that the host presents; idle for an Unknown
word or line, for a cycle without a step, for a reset, for a line that is refused, and between steps, when the host writes
its register file itself (R25). -/
def stepPorts (s : State) : RfPorts :=
  match fetch s with
  | .run i s'    => rfPorts i s'
  | .settled _   => RfPorts.idle
  | .malformed _ => RfPorts.idle

/-- The inspection port `dbg_data` for `dbg_addr` (R60), valid between steps. -/
def dbgData (s : State) (dbgAddr : Addr) : Byte := s.memoryGet dbgAddr

end Sys2Proof.Machine
end

