-- ==== Sys2Proof/Machine/SparseStore.lean ====
section
/-! DEFINITION. The sparse store as the document gives it (20_memory.md section 2, R64 to R71): a fixed number of buckets,
each a list of (key, value) pairs, and the store of a state, computed from `M`, `W` and `BUCKET_COUNT`. Its arrangement
is no architectural state (10_state.md R20); that the state's store is stepped by `put` is an obligation (log 12). -/

namespace Sys2Proof.Machine

/-- A Sequence Container, one bucket: unique keys, the newest key first, and its size, "tracked incrementally" (R66). -/
structure SeqContainer where
  nodes : List (Addr × Byte)
  size  : Nat
  deriving DecidableEq, Repr

def SeqContainer.empty : SeqContainer := { nodes := [], size := 0 }

/-- "returns the value of the first node whose key matches; returns 0 if no match" (R68). -/
def SeqContainer.get (c : SeqContainer) (key : Addr) : Byte :=
  match c.nodes.find? (fun n => n.1 == key) with
  | some n => n.2
  | none   => 0x00#8

/-- Overwrites the value of the first node with this key, its position unchanged. -/
def SeqContainer.overwrite (key : Addr) (value : Byte) : List (Addr × Byte) → List (Addr × Byte)
  | []     => []
  | n :: t => if n.1 = key then (key, value) :: t else n :: SeqContainer.overwrite key value t

/-- `insert_or_update(key, value)` (R67): in place where the key is there, else as the new head, size one more. -/
def SeqContainer.insertOrUpdate (c : SeqContainer) (key : Addr) (value : Byte) : SeqContainer :=
  if c.nodes.any (fun n => n.1 == key) then { c with nodes := SeqContainer.overwrite key value c.nodes }
  else { nodes := (key, value) :: c.nodes, size := c.size + 1 }

/-- The Sparse Map: its buckets, in the order of their index (R64). -/
structure SparseStore where
  buckets : List SeqContainer
  deriving DecidableEq, Repr

/-- `hash(address) = abs(address) mod bucket_count`, the address read as signed (R65), the magnitude in 33 bits, so that
`0x80000000` lives in bucket `2^31 mod BUCKET_COUNT` (R71). -/
def bucketOf (bucketCount : Nat) (a : Addr) : Nat := a.toInt.natAbs % bucketCount

/-- `init(bucket_count)` (R69). -/
def SparseStore.init (bucketCount : Nat) : SparseStore := { buckets := List.replicate bucketCount SeqContainer.empty }

/-- `put(address, byte_value)` (R69). -/
def SparseStore.put (st : SparseStore) (a : Addr) (b : Byte) : SparseStore :=
  { buckets := st.buckets.modify (bucketOf st.buckets.length a) (fun c => c.insertOrUpdate a b) }

/-- `get(address)` (R69). -/
def SparseStore.get (st : SparseStore) (a : Addr) : Byte :=
  match st.buckets[bucketOf st.buckets.length a]? with
  | some c => c.get a
  | none   => 0x00#8

/-- `size()`: the "sum of all bucket sizes" (R69). -/
def SparseStore.size (st : SparseStore) : Nat := (st.buckets.map SeqContainer.size).sum

/-- Bucket `k` of a state: the addresses of `W` that hash to it, newest first, each with its cell. -/
def State.bucket (s : State) (k : Nat) : SeqContainer :=
  let keys := s.written.filter (fun a => bucketOf s.cfg.bucketCount a == k)
  { nodes := keys.map (fun a => (a, s.memoryGet a)), size := keys.length }

/-- The sparse store that holds the cells of a state. -/
def State.sparseStore (s : State) : SparseStore :=
  { buckets := (List.range s.cfg.bucketCount).map s.bucket }

end Sys2Proof.Machine
end

