-- ==== Sys2Proof/Safety.lean ====
section
/-! DEFINITION. The terms that statements about the machine use: the invariant of a safe state, and what it is for a step
to write one register and nothing else, or some memory cells and nothing else (frames). -/

namespace Sys2Proof.Machine

/-- What every state of a run satisfies, whatever the host presents. -/
structure State.Inv (s : State) : Prop where
  /-- The hardwired entry of the register file is zero (10_state.md R22). -/
  zero      : s.regs[0] = 0#32
  /-- The memory is in canonical form (log 6). -/
  canonical : s.mem.wf
  /-- `W` is a set: no address stands in it twice (R33; 20_memory.md R66, "never duplicate keys"). -/
  nodup     : s.written.Nodup
  /-- A cell that is not zero has been stored to (R34). -/
  stored    : ∀ c ∈ s.mem, BitVec.ofNat 32 c.1 ∈ s.written
  /-- The sparse store holds no more entries than it can (20_memory.md R72). -/
  fits      : ∀ c, s.cfg.memCapacity = some c → s.written.length ≤ c

/-- From `s` to `t`, register `rd` receives `v` and nothing else changes: no other register, no cell, not `W`, not the
parameters, not what the host will do. For `rd = 0` nothing is written (10_state.md R22, R24; 41_register_type.md header). -/
structure WritesOnly (s t : State) (rd : RegIdx) (v : Word) : Prop where
  result  : rd ≠ 0#5 → t.readReg rd = v
  zero    : t.readReg 0#5 = 0#32
  others  : ∀ r, r ≠ rd → t.readReg r = s.readReg r
  memory  : ∀ a, t.memoryGet a = s.memoryGet a
  written : t.written = s.written
  params  : t.cfg = s.cfg
  input   : t.host = s.host

/-- From `s` to `t`, the `n` cells from `addr` on (modulo 2^32) receive the bytes `byte 0`, `byte 1`, ... and join `W`, and
nothing else changes: no other cell, no register, not the parameters, not what the host will do (20_memory.md R57). -/
structure StoresOnly (s t : State) (addr : Addr) (n : Nat) (byte : Nat → Byte) : Prop where
  stored    : ∀ k < n, t.memoryGet (addr + BitVec.ofNat 32 k) = byte k
  elsewhere : ∀ a, (∀ k < n, a ≠ addr + BitVec.ofNat 32 k) → t.memoryGet a = s.memoryGet a
  written   : ∀ a, a ∈ t.written ↔ a ∈ s.written ∨ ∃ k < n, a = addr + BitVec.ofNat 32 k
  registers : ∀ r, t.readReg r = s.readReg r
  params    : t.cfg = s.cfg
  input     : t.host = s.host

/-- The number of cells among the `n` from `addr` on that have no entry in the sparse store yet. -/
def newEntries (s : State) (addr : Addr) (n : Nat) : Nat :=
  ((List.range n).filter (fun k => decide (addr + BitVec.ofNat 32 k ∉ s.written))).length

/-- A store of `n` bytes at `addr` does not make `|W|` exceed `MEM_CAPACITY` (20_memory.md R72); true of every store when
the capacity is unbounded, the default. -/
def StoreFits (s : State) (addr : Addr) (n : Nat) : Prop :=
  ∀ c, s.cfg.memCapacity = some c → s.written.length + newEntries s addr n ≤ c

/-- The state in which the host presents the word `w` in a clock cycle, and then `rest` (40_step_transaction.md R140). -/
def State.presenting (s : State) (w : Word) (rest : List HostMove) : State := { s with host := presentWord w :: rest }

/-- The state in which the host presents the text line `text`, and then `rest` (R141). -/
def State.presentingLine (s : State) (text : List Char) (rest : List HostMove) : State :=
  { s with host := .line text :: rest }

/-- The rule of a Register-type instruction: every word of its row decodes to it, with its fields, where the row exists;
and it answers a next state in which `rd` alone has changed, to a value `v` with `res source1 source2 v`. -/
def RegisterTypeRule (mk : RegIdx → RegIdx → RegIdx → Instr) (bits : Word) (enabled : ExtRType → Prop)
    (res : Word → Word → Word → Prop) : Prop :=
  (∀ ext w, enabled ext → w &&& 0xFE00707F#32 = bits →
    decode ext w = .instr (mk ((w >>> 7).setWidth 5) ((w >>> 15).setWidth 5) ((w >>> 20).setWidth 5))) ∧
  ∀ (s : State) (rd rs1 rs2 : RegIdx), ∃ t v, exec (mk rd rs1 rs2) s = .next t ∧
    res (s.readReg rs1) (s.readReg rs2) v ∧ WritesOnly s t rd v

/-- The rule of an optional Register-type instruction when it is not enabled: its words are Unknown and a step on one
changes nothing, and its mnemonic is Unknown. -/
def AbsentRule (mnemonic : List Char) (bits : Word) (disabled : ExtRType → Prop) : Prop :=
  (∀ (s : State) (w : Word) (rest : List HostMove), disabled s.cfg.ext → w &&& 0xFE00707F#32 = bits →
    (∃ why, decode s.cfg.ext w = .unknown why) ∧ step (s.presenting w rest) = .next { s with host := rest }) ∧
  ∀ (ext : ExtRType) (text : List Char), disabled ext → lineMnemonic text = mnemonic → assemble ext text = .unknown

/-- The document's sign extension of a 12-bit field: "shift left by 20, then arithmetic shift right by 20" (30_encoding.md
R97). -/
def shiftSext12 (field : Word) : Word := (field <<< 20).sshiftRight 20

/-- The rule of an Immediate-type instruction. -/
def ImmediateTypeRule (mk : RegIdx → RegIdx → Word → Instr) (bits : Word) (res : Word → Word → Word → Prop) : Prop :=
  (∀ ext w, w &&& 0x0000707F#32 = bits →
    decode ext w = .instr (mk ((w >>> 7).setWidth 5) ((w >>> 15).setWidth 5) (shiftSext12 (w >>> 20)))) ∧
  ∀ (s : State) (rd rs1 : RegIdx) (imm : Word), ∃ t v, exec (mk rd rs1 imm) s = .next t ∧
    res (s.readReg rs1) imm v ∧ WritesOnly s t rd v

/-- The rule of a load: `res cell v` says which value `v` it makes of the cells from the effective address on. -/
def LoadRule (mk : RegIdx → RegIdx → Word → Instr) (bits : Word) (res : (Nat → Byte) → Word → Prop) : Prop :=
  (∀ ext w, w &&& 0x0000707F#32 = bits →
    decode ext w = .instr (mk ((w >>> 7).setWidth 5) ((w >>> 15).setWidth 5) (shiftSext12 (w >>> 20)))) ∧
  ∀ (s : State) (rd rs1 : RegIdx) (imm : Word), ∃ t v, exec (mk rd rs1 imm) s = .next t ∧
    res (fun k => s.memoryGet (s.readReg rs1 + imm + BitVec.ofNat 32 k)) v ∧ WritesOnly s t rd v

/-- The rule of a store of `n` bytes: its words decode to it, the offset joined from its two parts; and in a state whose
sparse store has room it answers a next state in which those cells alone have changed. -/
def StoreRule (mk : RegIdx → RegIdx → Word → Instr) (bits : Word) (n : Nat) : Prop :=
  (∀ ext w, w &&& 0x0000707F#32 = bits →
    decode ext w = .instr (mk ((w >>> 20).setWidth 5) ((w >>> 15).setWidth 5)
      (shiftSext12 (((w >>> 25) <<< 5) ||| ((w >>> 7) &&& 0x1F#32))))) ∧
  ∀ (s : State) (rs2 rs1 : RegIdx) (imm : Word), s.Inv → StoreFits s (s.readReg rs1 + imm) n →
    ∃ t, exec (mk rs2 rs1 imm) s = .next t ∧
      StoresOnly s t (s.readReg rs1 + imm) n (fun k => ((s.readReg rs2) >>> (8 * k)).setWidth 8)

end Sys2Proof.Machine
end

