-- ==== Sys2Proof/Certificates/Slice0/Obligations.lean ====
section
/-! DEFINITION. The statements for the provers. Each docstring names the rule of spec/ that the statement formalises. -/

open Sys2Proof Sys2Proof.Machine

/-! ### Encoding (30_encoding.md) -/

/-- R117: "`decode(encode(d)) = d` for every decoded instruction `d` of an enabled mnemonic". -/
def Obligations.DecodeOfEncode : Prop :=
  ∀ (ext : ExtRType) (i : Instr), i.wellFormed ext = true → decode ext (encode i) = .instr i

/-- R117: "`encode(decode(w)) = w` for every word `w` that is not Unknown"; and what the decoder yields is well formed. -/
def Obligations.EncodeOfDecode : Prop :=
  ∀ (ext : ExtRType) (w : Word) (i : Instr), decode ext w = .instr i → encode i = w ∧ i.wellFormed ext = true

/-- R99 to R105: a word decodes to an instruction of a row exactly when it matches the row's mask and match and the row
exists, and it is Unknown exactly when it matches no existing row. -/
def Obligations.DecodeFollowsOpcodeTable : Prop :=
  ∀ (ext : ExtRType) (w : Word),
    (∀ r ∈ opTable, (∃ i, decode ext w = .instr i ∧ i.op = r.op) ↔ (r.hits w ∧ r.op.enabled ext = true)) ∧
    ((∃ why, decode ext w = .unknown why) ↔ ∀ r ∈ opTable, r.op.enabled ext = true → ¬ r.hits w)

/-- R104: "The rows are disjoint, so at most one matches." -/
def Obligations.OpcodeRowsDisjoint : Prop :=
  ∀ (w : Word), ∀ r ∈ opTable, ∀ r' ∈ opTable, r.hits w → r'.hits w → r = r'

/-- R90, R93 to R97: the fields of a decoded instruction are slices of the word, the 12-bit immediates extended by the
document's two shifts, the 20-bit immediate in the high bits. -/
def Obligations.DecodedFieldsAreWordSlices : Prop :=
  ∀ (ext : ExtRType) (w : Word) (i : Instr), decode ext w = .instr i →
    (∀ r, i.rd? = some r → r = (w >>> 7).setWidth 5) ∧
    (∀ r, i.rs1? = some r → r = (w >>> 15).setWidth 5) ∧
    (∀ r, i.rs2? = some r → r = (w >>> 20).setWidth 5) ∧
    (∀ v, i.imm? = some v →
      ((∃ o, i.op = .imm o) ∨ (∃ o, i.op = .load o) → v = shiftSext12 (w >>> 20)) ∧
      ((∃ o, i.op = .store o) → v = shiftSext12 (((w >>> 25) <<< 5) ||| ((w >>> 7) &&& 0x1F#32))) ∧
      (i.op = .lui → v = (w >>> 12) <<< 12))

/-- R122: the document's lines, their decoded form and their word; and the Unknown line. A sanity statement. -/
def Obligations.WorkedEncodings : Prop :=
  (assemble ExtRType.none "add x3, x1, x2".toList = .instr (.add 3 1 2) ∧
    decode ExtRType.none 0x002081B3#32 = .instr (.add 3 1 2) ∧ encode (.add 3 1 2) = 0x002081B3#32) ∧
  (assemble ExtRType.none "addi x5, x1, 0xA".toList = .instr (.addi 5 1 0x0000000A#32) ∧
    decode ExtRType.none 0x00A08293#32 = .instr (.addi 5 1 0x0000000A#32) ∧
    encode (.addi 5 1 0x0000000A#32) = 0x00A08293#32) ∧
  (assemble ExtRType.none "sw x3, 0(x1)".toList = .instr (.sw 3 1 0#32) ∧
    decode ExtRType.none 0x0030A023#32 = .instr (.sw 3 1 0#32) ∧ encode (.sw 3 1 0#32) = 0x0030A023#32) ∧
  (assemble ExtRType.none "lw x4, 0(x1)".toList = .instr (.lw 4 1 0#32) ∧
    decode ExtRType.none 0x0000A203#32 = .instr (.lw 4 1 0#32) ∧ encode (.lw 4 1 0#32) = 0x0000A203#32) ∧
  (assemble ExtRType.none "lb x4, 0(x1)".toList = .instr (.lb 4 1 0#32) ∧
    decode ExtRType.none 0x00008203#32 = .instr (.lb 4 1 0#32) ∧ encode (.lb 4 1 0#32) = 0x00008203#32) ∧
  (assemble ExtRType.none "lui x2, 1".toList = .instr (.lui 2 0x00001000#32) ∧
    decode ExtRType.none 0x00001137#32 = .instr (.lui 2 0x00001000#32) ∧
    encode (.lui 2 0x00001000#32) = 0x00001137#32) ∧
  (assemble ExtRType.none "unknown_op x1, x2".toList = .unknown ∧
    assembleWord ExtRType.none "unknown_op x1, x2".toList = some 0x00000000#32 ∧
    decode ExtRType.none 0x00000000#32 = .unknown .opcode)

/-! ### The instructions, one by one (41 to 44) -/

/-- R161: `x[rd] <- x[rs1] + x[rs2]`, modulo 2^32. -/
def Obligations.AddRule : Prop :=
  RegisterTypeRule .add 0x00000033#32 (fun _ => True) (fun a b v => v = BitVec.ofInt 32 (a.toInt + b.toInt)) ∧
  assembleWord ExtRType.none "add x3, x1, x2".toList = some 0x002081B3#32

/-- R162: `x[rd] <- x[rs1] - x[rs2]`, modulo 2^32. -/
def Obligations.SubRule : Prop :=
  RegisterTypeRule .sub 0x40000033#32 (fun _ => True) (fun a b v => v = BitVec.ofInt 32 (a.toInt - b.toInt)) ∧
  assembleWord ExtRType.none "sub x3, x1, x2".toList = some 0x402081B3#32

/-- R163: bitwise AND. -/
def Obligations.AndRule : Prop :=
  RegisterTypeRule .and 0x00007033#32 (fun _ => True)
    (fun a b v => ∀ k < 32, v.getLsbD k = (a.getLsbD k && b.getLsbD k)) ∧
  assembleWord ExtRType.none "and x3, x1, x2".toList = some 0x0020F1B3#32

/-- R164: bitwise OR. -/
def Obligations.OrRule : Prop :=
  RegisterTypeRule .or 0x00006033#32 (fun _ => True)
    (fun a b v => ∀ k < 32, v.getLsbD k = (a.getLsbD k || b.getLsbD k)) ∧
  assembleWord ExtRType.none "or x3, x1, x2".toList = some 0x0020E1B3#32

/-- R165: bitwise XOR. -/
def Obligations.XorRule : Prop :=
  RegisterTypeRule .xor 0x00004033#32 (fun _ => True)
    (fun a b v => ∀ k < 32, v.getLsbD k = (a.getLsbD k != b.getLsbD k)) ∧
  assembleWord ExtRType.none "xor x3, x1, x2".toList = some 0x0020C1B3#32

/-- R166: 1 when `signed(x[rs1]) < signed(x[rs2])`, else 0. -/
def Obligations.SltRule : Prop :=
  RegisterTypeRule .slt 0x00002033#32 (fun _ => True)
    (fun a b v => (a.toInt < b.toInt → v = 0x00000001#32) ∧ (b.toInt ≤ a.toInt → v = 0x00000000#32)) ∧
  assembleWord ExtRType.none "slt x3, x1, x2".toList = some 0x0020A1B3#32

/-- R167: a left shift by the low five bits of source2, zeros entering, high bits lost. -/
def Obligations.SllRule : Prop :=
  RegisterTypeRule .sll 0x00001033#32 (fun _ => True)
    (fun a b v => v.toNat = a.toNat * 2 ^ (b.toNat % 32) % 2 ^ 32) ∧
  assembleWord ExtRType.none "sll x3, x1, x2".toList = some 0x002091B3#32

/-- R168: "the result is the floor of `signed(source1) / 2^shamt`". -/
def Obligations.SraRule : Prop :=
  RegisterTypeRule .sra 0x40005033#32 (fun _ => True)
    (fun a b v => v.toInt = a.toInt / 2 ^ (b.toNat % 32)) ∧
  assembleWord ExtRType.none "sra x3, x1, x2".toList = some 0x4020D1B3#32

/-- R169: 1 when both sources are zero, else 0, where `nor` is in `EXT_RTYPE`; else its words and its mnemonic are Unknown. -/
def Obligations.NorRule : Prop :=
  RegisterTypeRule .nor 0x40006033#32 (fun ext => ext.nor = true)
    (fun a b v => (a = 0x00000000#32 ∧ b = 0x00000000#32 → v = 0x00000001#32) ∧
      (¬ (a = 0x00000000#32 ∧ b = 0x00000000#32) → v = 0x00000000#32)) ∧
  AbsentRule "nor".toList 0x40006033#32 (fun ext => ext.nor = false) ∧
  assembleWord { nor := true, sla := false } "nor x3, x1, x2".toList = some 0x4020E1B3#32

/-- R170: the same result as `sll`, where `sla` is in `EXT_RTYPE`; else its words and its mnemonic are Unknown. That `sla` is
`sll` is the spec's own reading of the name (D5 of 92_eei_decisions.md, from general knowledge), which the model follows
(log 14). -/
def Obligations.SlaRule : Prop :=
  RegisterTypeRule .sla 0x40001033#32 (fun ext => ext.sla = true)
    (fun a b v => v.toNat = a.toNat * 2 ^ (b.toNat % 32) % 2 ^ 32) ∧
  AbsentRule "sla".toList 0x40001033#32 (fun ext => ext.sla = false) ∧
  assembleWord { nor := false, sla := true } "sla x3, x1, x2".toList = some 0x402091B3#32

/-- R181: `x[rd] <- x[rs1] + imm`, modulo 2^32; and the literals 4095, 2048 and 4096 that the rule names. -/
def Obligations.AddiRule : Prop :=
  ImmediateTypeRule .addi 0x00000013#32 (fun a imm v => v = BitVec.ofInt 32 (a.toInt + imm.toInt)) ∧
  assemble ExtRType.none "addi x1, x0, 4095".toList = .instr (.addi 1 0 0xFFFFFFFF#32) ∧
  assemble ExtRType.none "addi x1, x0, 2048".toList = .instr (.addi 1 0 0xFFFFF800#32) ∧
  assemble ExtRType.none "addi x1, x0, 4096".toList = .instr (.addi 1 0 0x00000000#32) ∧
  assembleWord ExtRType.none "addi x5, x1, 0xA".toList = some 0x00A08293#32

/-- R182: `x[rd] <- x[rs1] & imm`. -/
def Obligations.AndiRule : Prop :=
  ImmediateTypeRule .andi 0x00007013#32 (fun a imm v => ∀ k < 32, v.getLsbD k = (a.getLsbD k && imm.getLsbD k)) ∧
  assembleWord ExtRType.none "andi x5, x1, 10".toList = some 0x00A0F293#32

/-- R183: `x[rd] <- x[rs1] | imm`. -/
def Obligations.OriRule : Prop :=
  ImmediateTypeRule .ori 0x00006013#32 (fun a imm v => ∀ k < 32, v.getLsbD k = (a.getLsbD k || imm.getLsbD k)) ∧
  assembleWord ExtRType.none "ori x5, x1, 10".toList = some 0x00A0E293#32

/-- R184: `x[rd] <- x[rs1] ^ imm`. -/
def Obligations.XoriRule : Prop :=
  ImmediateTypeRule .xori 0x00004013#32 (fun a imm v => ∀ k < 32, v.getLsbD k = (a.getLsbD k != imm.getLsbD k)) ∧
  assembleWord ExtRType.none "xori x5, x1, -1".toList = some 0xFFF0C293#32

/-- R185: 1 when `signed(x[rs1]) < signed(imm)`, else 0. -/
def Obligations.SltiRule : Prop :=
  ImmediateTypeRule .slti 0x00002013#32
    (fun a imm v => (a.toInt < imm.toInt → v = 0x00000001#32) ∧ (imm.toInt ≤ a.toInt → v = 0x00000000#32)) ∧
  assembleWord ExtRType.none "slti x5, x1, -1".toList = some 0xFFF0A293#32

/-- R201: `byte0 | byte1<<8 | byte2<<16 | byte3<<24` of the four cells from `x[rs1] + imm` on. -/
def Obligations.LwRule : Prop :=
  LoadRule .lw 0x00002003#32 (fun cell v =>
    v.toNat = (cell 0).toNat + 2 ^ 8 * (cell 1).toNat + 2 ^ 16 * (cell 2).toNat + 2 ^ 24 * (cell 3).toNat) ∧
  assembleWord ExtRType.none "lw x4, 0(x1)".toList = some 0x0000A203#32

/-- R202: the cell at `x[rs1] + imm`, sign-extended from bit 7. -/
def Obligations.LbRule : Prop :=
  LoadRule .lb 0x00000003#32 (fun cell v => v.toInt = (cell 0).toInt) ∧
  assembleWord ExtRType.none "lb x4, 0(x1)".toList = some 0x00008203#32

/-- R203: the four bytes of `x[rs2]` go to the four cells from `x[rs1] + imm` on, the lowest byte first. -/
def Obligations.SwRule : Prop := StoreRule .sw 0x00002023#32 4 ∧
  assembleWord ExtRType.none "sw x3, 0(x1)".toList = some 0x0030A023#32

/-- R204: the low byte of `x[rs2]` goes to the cell at `x[rs1] + imm`. -/
def Obligations.SbRule : Prop := StoreRule .sb 0x00000023#32 1 ∧
  assembleWord ExtRType.none "sb x3, 0(x1)".toList = some 0x00308023#32

/-- R220: `x[rd] <- {imm20, 0x000}`; and the text literals that the rule names. -/
def Obligations.LuiRule : Prop :=
  (∀ ext w, w &&& 0x0000007F#32 = 0x00000037#32 →
    decode ext w = .instr (.lui ((w >>> 7).setWidth 5) ((w >>> 12) <<< 12))) ∧
  (∀ (s : State) (rd : RegIdx) (imm : Word), ∃ t, exec (.lui rd imm) s = .next t ∧ WritesOnly s t rd imm) ∧
  assemble ExtRType.none "lui x2, 0x100000".toList = .instr (.lui 2 0x00000000#32) ∧
  assemble ExtRType.none "lui x2, 0x123456".toList = .instr (.lui 2 0x23456000#32) ∧
  assemble ExtRType.none "lui x2, -1".toList = .instr (.lui 2 0xFFFFF000#32) ∧
  assembleWord ExtRType.none "lui x2, 0x12345".toList = some 0x12345137#32

/-! ### The step (40_step_transaction.md) -/

/-- R141: a step runs the instruction that the presented word, or the presented line, decodes to, in the state in which the
host's move has been taken; and the word that `withFetchWord` places is run by the very next step. The list of moves and
`withFetchWord` are the model's own (logs 1, 2 and 4). -/
def Obligations.StepRunsPresentedInstruction : Prop :=
  (∀ (s : State) (p : Pins) (rest : List HostMove) (i : Instr), s.host = .cycle p :: rest → p.rst = false →
    p.instrValid = true → decode s.cfg.ext p.instr = .instr i → step s = exec i { s with host := rest }) ∧
  (∀ (s : State) (text : List Char) (rest : List HostMove) (i : Instr), s.host = .line text :: rest →
    assemble s.cfg.ext text = .instr i → step s = exec i { s with host := rest }) ∧
  (∀ (s : State) (w : Word) (i : Instr), decodeTableWord 32 w.toNat = some i →
    step (s.withFetchWord 32 w.toNat) =
      exec i { s with cfg := { s.cfg with ext := ExtRType.withRowOf s.cfg.ext w } })

/-- R145: a word that matches no existing row, and a line whose mnemonic is in no enabled set, leave the state as it is
(the host's move is consumed), whatever the tail of the line holds. -/
def Obligations.UnknownChangesNothing : Prop :=
  (∀ (s : State) (w : Word) (rest : List HostMove),
    (∀ r ∈ opTable, r.op.enabled s.cfg.ext = true → ¬ r.hits w) →
      step (s.presenting w rest) = .next { s with host := rest }) ∧
  (∀ (s : State) (text : List Char) (rest : List HostMove),
    (∀ o ∈ membershipSets, o.enabled s.cfg.ext = true → Op.text o ≠ text.takeWhile (fun c => c != ' ')) →
      step (s.presentingLine text rest) = .next { s with host := rest })

/-- R146: with `MEM_CAPACITY` unbounded every word steps to a next state; a fault is the capacity's alone; a text line steps,
or is refused exactly when it is malformed. -/
def Obligations.StepIsTotalOnWords : Prop :=
  (∀ (s : State) (w : Word) (rest : List HostMove), s.cfg.memCapacity = none → ∃ t, step (s.presenting w rest) = .next t) ∧
  (∀ (s : State) (text : List Char) (rest : List HostMove), s.cfg.memCapacity = none →
    (∀ e, assemble s.cfg.ext text = .malformed e → step (s.presentingLine text rest) = .refused (.malformedLine e)) ∧
    ((∀ e, assemble s.cfg.ext text ≠ .malformed e) → ∃ t, step (s.presentingLine text rest) = .next t)) ∧
  (∀ (s : State) (f : Fault), step s = .fault f → f = .storageExhausted ∧ ∃ c, s.cfg.memCapacity = some c) ∧
  (∀ (s : State) (r : Refusal), step s = .refused r → ∃ text rest e, s.host = .line text :: rest ∧
    assemble s.cfg.ext text = .malformed e ∧ r = .malformedLine e)

/-- R144: an instruction writes one register and no cell, or at most four cells and no register; `x[0]` stays zero. -/
def Obligations.OneDestinationPerInstruction : Prop :=
  ∀ (i : Instr) (s t : State), exec i s = .next t →
    t.readReg 0#5 = 0x00000000#32 ∧
    (((∃ rd, i.rd? = some rd ∧ ∀ r, r ≠ rd → t.readReg r = s.readReg r) ∧
        (∀ a, t.memoryGet a = s.memoryGet a) ∧ t.written = s.written) ∨
      (i.rd? = none ∧ (∀ r, t.readReg r = s.readReg r) ∧
        ∃ rs1 imm, i.rs1? = some rs1 ∧ i.imm? = some imm ∧
          ∀ a, (∀ k < 4, a ≠ s.readReg rs1 + imm + BitVec.ofNat 32 k) →
            t.memoryGet a = s.memoryGet a ∧ (a ∈ t.written ↔ a ∈ s.written)))

/-- R24, R27: port A carries `rs1` and port B `rs2`, each with the register's value before the step; the register file
changes exactly as the write port says, and the port writes exactly for the instructions that have a destination other than
register 0; an Unknown step drives no port, with `rf_we = 0`. That the ports are functions is the model's own form (log 10). -/
def Obligations.RegisterPortsTellTheWrite : Prop :=
  (∀ (i : Instr) (s : State),
    ((rfPorts i s).we = true ↔ ∃ rd, i.rd? = some rd ∧ rd ≠ 0#5) ∧
    (rfPorts i s).raddrA = i.rs1? ∧ (rfPorts i s).raddrB = i.rs2? ∧
    (∀ r, (rfPorts i s).raddrA = some r → (rfPorts i s).rdataA = some (s.readReg r)) ∧
    (∀ r, (rfPorts i s).raddrB = some r → (rfPorts i s).rdataB = some (s.readReg r))) ∧
  (∀ (i : Instr) (s t : State), exec i s = .next t →
    ((rfPorts i s).we = true → ∃ rd v, (rfPorts i s).waddr = some rd ∧ (rfPorts i s).wdata = some v ∧
      t.readReg rd = v ∧ ∀ r, r ≠ rd → t.readReg r = s.readReg r) ∧
    ((rfPorts i s).we = false → ∀ r, t.readReg r = s.readReg r)) ∧
  (∀ (s : State) (w : Word) (rest : List HostMove),
    (∀ i, decode s.cfg.ext w = .instr i → stepPorts (s.presenting w rest) = rfPorts i s) ∧
    (∀ why, decode s.cfg.ext w = .unknown why → stepPorts (s.presenting w rest) = RfPorts.idle)) ∧
  (∀ (s : State) (text : List Char) (rest : List HostMove),
    (∀ i, assemble s.cfg.ext text = .instr i → stepPorts (s.presentingLine text rest) = rfPorts i s) ∧
    (assemble s.cfg.ext text = .unknown → stepPorts (s.presentingLine text rest) = RfPorts.idle)) ∧
  (∀ (s t : State), (∀ i v rest, s.host ≠ .writeReg i v :: rest) → step s = .next t →
    ((stepPorts s).we = true → ∃ rd v, (stepPorts s).waddr = some rd ∧ (stepPorts s).wdata = some v ∧
      t.readReg rd = v ∧ ∀ r, r ≠ rd → t.readReg r = s.readReg r) ∧
    ((stepPorts s).we = false → ∀ r, t.readReg r = s.readReg r))

/-- R24: an instruction's effect depends on no register but the ones it names as sources. -/
def Obligations.OnlyNamedRegistersAreRead : Prop :=
  ∀ (i : Instr) (s s' t t' : State), s.mem = s'.mem →
    (∀ r, i.rs1? = some r ∨ i.rs2? = some r → s.readReg r = s'.readReg r) →
    exec i s = .next t → exec i s' = .next t' →
    t.mem = t'.mem ∧ ∀ rd, i.rd? = some rd → t.readReg rd = t'.readReg rd

/-- R30: the parameters are "fixed before reset and not readable or writable by any instruction"; no host move changes
them either. -/
def Obligations.ParametersNeverChange : Prop :=
  ∀ (s t : State), step s = .next t → t.cfg = s.cfg

/-- R140, R150: a cycle with neither `rst` nor `instr_valid` changes no state, and neither does a host that presents no
more. That the list of moves is the host is the model's own form (log 1). -/
def Obligations.IdleCycleChangesNothing : Prop :=
  (∀ (s : State) (p : Pins) (rest : List HostMove), s.host = .cycle p :: rest → p.rst = false → p.instrValid = false →
    step s = .next { s with host := rest }) ∧
  (∀ (s : State), s.host = [] → step s = .next s)

/-- R25: a host write between two steps changes that register and nothing else; index 0 is ignored. -/
def Obligations.HostWritesOneRegister : Prop :=
  ∀ (s : State) (i : RegIdx) (v : Word) (rest : List HostMove), s.host = .writeReg i v :: rest →
    ∃ t, step s = .next t ∧ WritesOnly { s with host := rest } t i v

/-! ### Reset (70_reset_and_hazards.md) and the invariant -/

/-- R36: the values after reset, for every configuration and every REG_INIT. -/
def Obligations.ResetValues : Prop :=
  ∀ (cfg : Config) (regInit : Vector Word 32),
    (State.resetWith cfg regInit).readReg 0#5 = 0x00000000#32 ∧
    (∀ i : RegIdx, i ≠ 0#5 → (State.resetWith cfg regInit).readReg i = regInit[i.toNat]'i.isLt) ∧
    (∀ a, (State.resetWith cfg regInit).memoryGet a = 0x00#8) ∧
    (∀ a, a ∉ (State.resetWith cfg regInit).written) ∧
    (State.resetWith cfg regInit).sparseStore.size = 0

/-- R261: the effect of the reset signal, whatever the other pins (R263). -/
def Obligations.ResetSignalEmptiesMemory : Prop :=
  ∀ (s : State) (p : Pins) (rest : List HostMove), s.host = .cycle p :: rest → p.rst = true →
    ∃ t, step s = .next t ∧ (∀ a, t.memoryGet a = 0x00#8) ∧ (∀ a, a ∉ t.written) ∧ t.sparseStore.size = 0 ∧
      (∀ c ∈ t.sparseStore.buckets, c.nodes = []) ∧ (∀ r, t.readReg r = s.readReg r) ∧
      t.readReg 0#5 = 0x00000000#32 ∧ t.cfg = s.cfg ∧ t.host = rest

/-- The invariant holds after reset, for every configuration and every REG_INIT. The canonical forms in it are the model's
own (logs 5 and 6). -/
def Obligations.InvariantAfterReset : Prop :=
  (∀ (cfg : Config) (regInit : Vector Word 32), (State.resetWith cfg regInit).Inv) ∧ State.reset.Inv

/-- Every step keeps the invariant, whatever the host presents. The canonical forms in it are the model's own (logs 5 and
6). -/
def Obligations.InvariantKeptByEveryStep : Prop :=
  ∀ (s t : State), s.Inv → step s = .next t → t.Inv

/-! ### Memory (20_memory.md, 43_memory_type.md) -/

/-- R34: a cell outside `W` holds `0x00`; "The converse does not hold". -/
def Obligations.NeverStoredReadsZero : Prop :=
  (∀ s : State, s.Inv → ∀ a, a ∉ s.written → s.memoryGet a = 0x00#8) ∧
  (∃ s : State, s.Inv ∧ ∃ a, a ∈ s.written ∧ s.memoryGet a = 0x00#8)

/-- R33: "Nothing removes an address from `W` except reset." -/
def Obligations.WrittenSetNeverShrinks : Prop :=
  ∀ (s t : State), step s = .next t → (∀ p rest, s.host = .cycle p :: rest → p.rst = false) →
    ∀ a, a ∈ s.written → a ∈ t.written

/-- R205, (a) to (e): store then load. -/
def Obligations.StoreThenLoadLaws : Prop :=
  ∀ (s : State), s.Inv → ∀ (addr : Addr) (v : Word),
    (s.memWrite addr .word v).memRead4 addr = v ∧
    (s.memWrite addr .byte v).memRead1 addr = v.setWidth 8 ∧
    (∀ k < 4, (s.memWrite addr .word v).memRead1 (addr + BitVec.ofNat 32 k) = (v >>> (8 * k)).setWidth 8) ∧
    (∀ (n : Width) (a : Addr), (∀ k < n.bytes, a ≠ addr + BitVec.ofNat 32 k) →
      (s.memWrite addr n v).memoryGet a = s.memoryGet a) ∧
    (∀ (rd rs1 : RegIdx) (imm : Word) (t : State),
      exec (.lw rd rs1 imm) s = .next t ∨ exec (.lb rd rs1 imm) s = .next t →
        (∀ a, t.memoryGet a = s.memoryGet a) ∧ t.written = s.written)

/-- R59: "Storing the same value twice leaves `M` and `W` as after the first store." -/
def Obligations.StoreTwiceIsStoreOnce : Prop :=
  ∀ (s : State), s.Inv → ∀ (addr : Addr) (n : Width) (v : Word),
    (s.memWrite addr n v).memWrite addr n v = s.memWrite addr n v

/-- R73: a store is visible to the very next step: a word stored and loaded back at the same address is the word, a byte is
its sign extension. Two steps of the machine, whatever the base, the offset and the registers. -/
def Obligations.StoreVisibleToNextStep : Prop :=
  ∀ (s : State) (rd rs1 rs2 : RegIdx) (imm : Word) (rest : List HostMove), s.Inv → s.cfg.memCapacity = none →
    rd ≠ 0#5 → immFits12 imm = true →
    (∃ t, Sys2Proof.core.run 2
        { s with host := presentWord (encode (.sw rs2 rs1 imm)) :: presentWord (encode (.lw rd rs1 imm)) :: rest } = .next t ∧
      t.readReg rd = s.readReg rs2) ∧
    (∃ t, Sys2Proof.core.run 2
        { s with host := presentWord (encode (.sb rs2 rs1 imm)) :: presentWord (encode (.lb rd rs1 imm)) :: rest } = .next t ∧
      t.readReg rd = ((s.readReg rs2).setWidth 8).signExtend 32)

/-- R72: a store is stuck exactly when it would make `|W|` exceed a finite `MEM_CAPACITY`; unbounded, the default, it never
fails. -/
def Obligations.StoreStuckExactlyWhenFull : Prop :=
  Config.default.memCapacity = none ∧
  (∀ (s : State) (rs2 rs1 : RegIdx) (imm : Word), s.cfg.memCapacity = none →
    (∃ t, exec (.sw rs2 rs1 imm) s = .next t) ∧ (∃ t, exec (.sb rs2 rs1 imm) s = .next t)) ∧
  (∀ (s : State) (rs2 rs1 : RegIdx) (imm : Word) (c : Nat), s.cfg.memCapacity = some c →
    (exec (.sw rs2 rs1 imm) s = .fault .storageExhausted ↔
      c < s.written.length + newEntries s (s.readReg rs1 + imm) 4) ∧
    (exec (.sb rs2 rs1 imm) s = .fault .storageExhausted ↔
      c < s.written.length + newEntries s (s.readReg rs1 + imm) 1))

/-- Two memories in canonical form that read alike are equal: the data says what the machine holds and nothing more. That the
memory is such a list is the model's own form (log 6). -/
def Obligations.MemoriesReadingAlikeAreEqual : Prop :=
  ∀ (m m' : Memory), m.wf → m'.wf → (∀ a < 2 ^ 32, m.read a = m'.read a) → m = m'

/-! ### The sparse store (20_memory.md R64 to R71) -/

/-- R64 to R71: the store of a state is stepped by `put`: one for `sb`, four from the lowest address up for `sw`; any other
instruction leaves it alone; after reset it is `init(bucket_count)`. That the store is computed from the state, and the
order of a word's four puts, are the model's own (logs 5 and 12). -/
def Obligations.MachineStepsSparseStoreByPut : Prop :=
  (∀ (cfg : Config) (regInit : Vector Word 32),
    (State.resetWith cfg regInit).sparseStore = SparseStore.init cfg.bucketCount) ∧
  (∀ (s : State), s.applyReset.sparseStore = SparseStore.init s.cfg.bucketCount) ∧
  (∀ (s t : State) (rs2 rs1 : RegIdx) (imm : Word), s.Inv → exec (.sb rs2 rs1 imm) s = .next t →
    t.sparseStore = s.sparseStore.put (s.readReg rs1 + imm) ((s.readReg rs2).setWidth 8)) ∧
  (∀ (s t : State) (rs2 rs1 : RegIdx) (imm : Word), s.Inv → exec (.sw rs2 rs1 imm) s = .next t →
    t.sparseStore =
      (((s.sparseStore.put (s.readReg rs1 + imm) ((s.readReg rs2).setWidth 8)).put
        (s.readReg rs1 + imm + 1#32) ((s.readReg rs2 >>> 8).setWidth 8)).put
        (s.readReg rs1 + imm + 2#32) ((s.readReg rs2 >>> 16).setWidth 8)).put
        (s.readReg rs1 + imm + 3#32) ((s.readReg rs2 >>> 24).setWidth 8)) ∧
  (∀ (i : Instr) (s t : State), i.rd? ≠ none → exec i s = .next t → t.sparseStore = s.sparseStore)

/-- R69: "`get(a)` is `M[a]`", and `size()` is `|W|`; R66: the size of each bucket is the count of its nodes, its keys are
unique, and each key lives in the bucket it hashes to (R65). That the store is computed from the state is the model's own (log
12). -/
def Obligations.SparseStoreHoldsTheCells : Prop :=
  ∀ (s : State), s.Inv →
    (∀ a, s.sparseStore.get a = s.memoryGet a) ∧ s.sparseStore.size = s.written.length ∧
    s.sparseStore.buckets.length = s.cfg.bucketCount ∧
    ∀ (k : Nat) (c : SeqContainer), s.sparseStore.buckets[k]? = some c →
      c.size = c.nodes.length ∧ (c.nodes.map Prod.fst).Nodup ∧
        ∀ n ∈ c.nodes, n.1.toInt.natAbs % s.cfg.bucketCount = k

/-- R66 to R68: a container after `insert_or_update`. -/
def Obligations.SequenceContainerLaws : Prop :=
  ∀ (c : SeqContainer) (k : Addr) (v : Byte), c.size = c.nodes.length → (c.nodes.map Prod.fst).Nodup →
    (c.insertOrUpdate k v).get k = v ∧
    (∀ k', k' ≠ k → (c.insertOrUpdate k v).get k' = c.get k') ∧
    (c.insertOrUpdate k v).size = (c.insertOrUpdate k v).nodes.length ∧
    ((c.insertOrUpdate k v).nodes.map Prod.fst).Nodup ∧
    (c.insertOrUpdate k v).insertOrUpdate k v = c.insertOrUpdate k v ∧
    (k ∈ c.nodes.map Prod.fst → (c.insertOrUpdate k v).nodes.map Prod.fst = c.nodes.map Prod.fst) ∧
    (k ∉ c.nodes.map Prod.fst → (c.insertOrUpdate k v).nodes = (k, v) :: c.nodes) ∧
    (k ∉ c.nodes.map Prod.fst → c.get k = 0x00#8)

/-! ### Constants (44_upper_type.md) -/

/-- R221: `lui` then `addi` builds any 32-bit constant, two steps of the machine; "when bit 11 of `C` is 1 the `addi`
subtracts, and `hi` must be one more than `C[31:12]` (modulo 2^20)". -/
def Obligations.LuiAddiBuildAnyConstant : Prop :=
  ∀ (s : State) (rd : RegIdx) (c : Word) (rest : List HostMove), rd ≠ 0#5 →
    (∃ t, Sys2Proof.core.run 2
        { s with
          host :=
            presentWord (((c - (c.extractLsb' 0 12).signExtend 32).extractLsb' 12 20 ++ rd ++ 0b0110111#7 : BitVec 32)) ::
            presentWord ((c.extractLsb' 0 12 ++ rd ++ 0b000#3 ++ rd ++ 0b0010011#7 : BitVec 32)) :: rest } = .next t ∧
      t.readReg rd = c) ∧
    (c.getLsbD 11 = true →
      (c - (c.extractLsb' 0 12).signExtend 32).extractLsb' 12 20 = c.extractLsb' 12 20 + 1#20) ∧
    (c.getLsbD 11 = false →
      (c - (c.extractLsb' 0 12).signExtend 32).extractLsb' 12 20 = c.extractLsb' 12 20)

/-! ### The text level (30_encoding.md section 4) -/

/-- R116, R121: the assembler reads back the canonical spelling of every well-formed instruction. -/
def Obligations.AssembleOfPrint : Prop :=
  ∀ (ext : ExtRType) (i : Instr), i.wellFormed ext = true → assemble ext (printInstr i) = .instr i

/-- R6, R117, R119: a step on a text line is the step on the word the assembler emits for it. That a line is run over
its decoded form is the model's own way (log 13). -/
def Obligations.LineStepsLikeItsWord : Prop :=
  ∀ (s : State) (text : List Char) (rest : List HostMove) (w : Word), assembleWord s.cfg.ext text = some w →
    step (s.presentingLine text rest) = step (s.presenting w rest)

/-- R97: the fields `v mod 2^12` and `v mod 2^20` reach the document's `(v << 20) >>s 20` and `v << 12`, for every `v`, and
the 12-bit immediate is in -2048 .. +2047. -/
def Obligations.LiteralsReachTheShiftedImmediates : Prop :=
  ∀ (v : Int),
    literalImm12 v = shiftSext12 (BitVec.ofInt 32 v) ∧
    literalImm20 v = BitVec.ofInt 32 v <<< 12 ∧
    -2048 ≤ (literalImm12 v).toInt ∧ (literalImm12 v).toInt ≤ 2047

/-- R112, R118, R233: a line of a known mnemonic is refused for its operand count exactly when its tail holds another number
of tokens than its class has, whatever the tokens are; and a refused line is refused by the step. -/
def Obligations.OperandCountIsCheckedFirst : Prop :=
  ∀ (ext : ExtRType) (text : List Char) (o : Op), classify ext (lineMnemonic text) = some o →
    (assemble ext text = .malformed .operandCount ↔
      (tokens o.cls (lineTail text)).length ≠ (if o = .lui then 2 else 3)) ∧
    ∀ (s : State) (rest : List HostMove) (e : LineError), s.cfg.ext = ext → assemble ext text = .malformed e →
      step (s.presentingLine text rest) = .refused (.malformedLine e)

/-- R113, R118: a register token is `x` and one or two decimal digits; its index is their decimal value; 32 to 99 is a
`RegisterIndexError`; anything else is a syntax error. -/
def Obligations.RegisterTokens : Prop :=
  (∀ n < 10, parseReg ['x', digitChar n] = .ok (BitVec.ofNat 5 n)) ∧
  (∀ m < 10, ∀ n < 10, 10 * m + n < 32 →
    parseReg ['x', digitChar m, digitChar n] = .ok (BitVec.ofNat 5 (10 * m + n))) ∧
  (∀ m < 10, ∀ n < 10, 32 ≤ 10 * m + n → parseReg ['x', digitChar m, digitChar n] = .error .registerIndex) ∧
  (∀ token, (∀ n < 10, token ≠ ['x', digitChar n]) →
    (∀ m < 10, ∀ n < 10, token ≠ ['x', digitChar m, digitChar n]) → parseReg token = .error .registerSyntax)
end

