-- ==== Sys2Proof/Laws/State.lean ====
section
/-! SUPPORT. The small lemmas of the state's updates: one per field and update, so that no later proof unfolds a record
update; and of registers: a read after a write. -/

namespace Sys2Proof.Machine

/-! ### `resetWith` and `applyReset` -/

@[simp] theorem State.resetWith_mem (cfg : Config) (r : Vector Word 32) : (State.resetWith cfg r).mem = [] := rfl
@[simp] theorem State.resetWith_written (cfg : Config) (r : Vector Word 32) : (State.resetWith cfg r).written = [] := rfl
@[simp] theorem State.resetWith_cfg (cfg : Config) (r : Vector Word 32) : (State.resetWith cfg r).cfg = cfg := rfl
@[simp] theorem State.resetWith_host (cfg : Config) (r : Vector Word 32) : (State.resetWith cfg r).host = [] := rfl
@[simp] theorem State.resetWith_regs (cfg : Config) (r : Vector Word 32) :
    (State.resetWith cfg r).regs = r.set 0 0#32 := rfl

@[simp] theorem State.applyReset_regs (s : State) : s.applyReset.regs = s.regs := rfl
@[simp] theorem State.applyReset_mem (s : State) : s.applyReset.mem = [] := rfl
@[simp] theorem State.applyReset_written (s : State) : s.applyReset.written = [] := rfl
@[simp] theorem State.applyReset_cfg (s : State) : s.applyReset.cfg = s.cfg := rfl
@[simp] theorem State.applyReset_host (s : State) : s.applyReset.host = s.host := rfl

/-! ### `storeCell` -/

@[simp] theorem State.storeCell_regs (s : State) (a : Addr) (b : Byte) : (s.storeCell a b).regs = s.regs := rfl
@[simp] theorem State.storeCell_mem (s : State) (a : Addr) (b : Byte) :
    (s.storeCell a b).mem = s.mem.write a.toNat b := rfl
@[simp] theorem State.storeCell_written (s : State) (a : Addr) (b : Byte) :
    (s.storeCell a b).written = s.written.insert a := rfl
@[simp] theorem State.storeCell_cfg (s : State) (a : Addr) (b : Byte) : (s.storeCell a b).cfg = s.cfg := rfl
@[simp] theorem State.storeCell_host (s : State) (a : Addr) (b : Byte) : (s.storeCell a b).host = s.host := rfl

/-! ### `writeReg` -/

@[simp] theorem State.writeReg_mem (s : State) (i : RegIdx) (v : Word) : (s.writeReg i v).mem = s.mem := by
  unfold State.writeReg; split <;> rfl
@[simp] theorem State.writeReg_written (s : State) (i : RegIdx) (v : Word) : (s.writeReg i v).written = s.written := by
  unfold State.writeReg; split <;> rfl
@[simp] theorem State.writeReg_cfg (s : State) (i : RegIdx) (v : Word) : (s.writeReg i v).cfg = s.cfg := by
  unfold State.writeReg; split <;> rfl
@[simp] theorem State.writeReg_host (s : State) (i : RegIdx) (v : Word) : (s.writeReg i v).host = s.host := by
  unfold State.writeReg; split <;> rfl

/-! ### Observations depend on one field each -/

theorem State.readReg_congr {s t : State} (h : t.regs = s.regs) (i : RegIdx) : t.readReg i = s.readReg i := by
  simp only [State.readReg, h]

theorem State.memoryGet_congr {s t : State} (h : t.mem = s.mem) (a : Addr) : t.memoryGet a = s.memoryGet a := by
  simp only [State.memoryGet, h]

@[simp] theorem State.memoryGet_writeReg (s : State) (i : RegIdx) (v : Word) (a : Addr) :
    (s.writeReg i v).memoryGet a = s.memoryGet a := State.memoryGet_congr (State.writeReg_mem s i v) a

@[simp] theorem State.readReg_storeCell (s : State) (a : Addr) (b : Byte) (i : RegIdx) :
    (s.storeCell a b).readReg i = s.readReg i := State.readReg_congr (State.storeCell_regs s a b) i

@[simp] theorem State.readReg_applyReset (s : State) (i : RegIdx) : s.applyReset.readReg i = s.readReg i := rfl

@[simp] theorem State.memoryGet_applyReset (s : State) (a : Addr) : s.applyReset.memoryGet a = Memory.unlisted := rfl

/-! ### Registers -/

/-- Register 0 reads as zero (R22). -/
@[simp] theorem State.readReg_zero (s : State) : s.readReg 0#5 = 0#32 := rfl

/-- A write to register 0 has no effect (R22). -/
@[simp] theorem State.writeReg_zero (s : State) (v : Word) : s.writeReg 0#5 v = s := rfl

theorem State.readReg_writeReg_same (s : State) {i : RegIdx} (h : i ≠ 0#5) (v : Word) :
    (s.writeReg i v).readReg i = v := by
  simp [State.readReg, State.writeReg, h]

theorem State.readReg_writeReg_other (s : State) {i r : RegIdx} (h : r ≠ i) (v : Word) :
    (s.writeReg i v).readReg r = s.readReg r := by
  have hne : i.toNat ≠ r.toNat := fun e => h (BitVec.eq_of_toNat_eq e.symm)
  by_cases hi : i = 0#5
  · subst hi; rfl
  · by_cases hr : r = 0#5
    · subst hr; rfl
    · simp [State.readReg, State.writeReg, hi, hr, hne]

/-- A register write changes its register and nothing else. -/
theorem State.writeReg_writesOnly (s : State) (rd : RegIdx) (v : Word) : WritesOnly s (s.writeReg rd v) rd v where
  result h  := State.readReg_writeReg_same s h v
  zero      := rfl
  others _ h := State.readReg_writeReg_other s h v
  memory a  := State.memoryGet_writeReg s rd v a
  written   := State.writeReg_written s rd v
  params    := State.writeReg_cfg s rd v
  input     := State.writeReg_host s rd v

end Sys2Proof.Machine
end

