-- ==== Sys2Proof/Laws/Memory.lean ====
section
/-! SUPPORT. The byte memory: every operation keeps the canonical form; a read after a write; memories in canonical form
that read alike are equal. And the accesses `MemRead` and `MemWrite` on top of it. -/

namespace Sys2Proof.Machine

/-! ### Reading -/

@[simp] theorem Memory.read_nil (a : Nat) : Memory.read [] a = Memory.unlisted := rfl

theorem Memory.read_cons (c : Host.Cell) (m : Memory) (a : Nat) :
    Memory.read (c :: m) a = if a = c.1 then c.2 else Memory.read m a := rfl

/-- An address below every listed one reads as unlisted. -/
theorem Memory.read_of_lt {m : Memory} {a : Nat} (h : ∀ c ∈ m, a < c.1) : Memory.read m a = Memory.unlisted := by
  induction m with
  | nil => rfl
  | cons c m ih =>
    have hc := h c (by simp)
    rw [Memory.read_cons, if_neg (by omega), ih (fun d hd => h d (by simp [hd]))]

theorem Memory.read_list (a : Nat) (b : Byte) (m : Memory) (x : Nat) :
    Memory.read (Memory.list a b m) x = if b ≠ Memory.unlisted ∧ x = a then b else Memory.read m x := by
  unfold Memory.list
  split <;> simp_all [Memory.read_cons]

/-- A write leaves every other address alone. -/
theorem Memory.read_write_other {m : Memory} {a x : Nat} (b : Byte) (h : x ≠ a) :
    Memory.read (Memory.write m a b) x = Memory.read m x := by
  induction m with
  | nil => simp [Memory.write, Memory.read_list, h]
  | cons c m ih =>
    unfold Memory.write
    split
    · simp [Memory.read_list, h]
    · split
      · rename_i hac
        rw [Memory.read_list, Memory.read_cons, if_neg (by simp [h]), if_neg (by omega)]
      · rw [Memory.read_cons, Memory.read_cons, ih]

/-- A read of the address written gives the byte written. -/
theorem Memory.read_write_same {m : Memory} (hm : m.wf) (a : Nat) (b : Byte) :
    Memory.read (Memory.write m a b) a = b := by
  induction m with
  | nil =>
    rw [Memory.write, Memory.read_list]
    split <;> simp_all
  | cons c m ih =>
    obtain ⟨hs, hv⟩ := hm
    rw [List.pairwise_cons] at hs
    have hm' : Memory.wf m := ⟨hs.2, fun d hd => hv d (by simp [hd])⟩
    unfold Memory.write
    split
    · rename_i hac
      rw [Memory.read_list, Memory.read_of_lt (m := c :: m)]
      · split <;> simp_all
      · intro d hd
        rcases List.mem_cons.1 hd with rfl | hd
        · exact hac
        · exact lt_trans hac (hs.1 d hd)
    · split
      · rename_i hac
        rw [Memory.read_list, Memory.read_of_lt (m := m) (fun d hd => hac ▸ hs.1 d hd)]
        split <;> simp_all
      · rename_i hac
        rw [Memory.read_cons, if_neg hac, ih hm']

/-! ### Canonical form -/

theorem Memory.wf_nil : Memory.wf [] := by simp [Memory.wf]

theorem Memory.wf_cons {c : Host.Cell} {m : Memory} :
    Memory.wf (c :: m) ↔ (∀ d ∈ m, c.1 < d.1) ∧ c.1 < 2 ^ 32 ∧ c.2 ≠ Memory.unlisted ∧ Memory.wf m := by
  simp only [Memory.wf, List.pairwise_cons, List.forall_mem_cons]
  tauto

theorem Memory.mem_list {a : Nat} {b : Byte} {m : Memory} {c : Host.Cell} (h : c ∈ Memory.list a b m) :
    c = (a, b) ∨ c ∈ m := by
  unfold Memory.list at h
  split at h
  · exact .inr h
  · exact List.mem_cons.1 h

theorem Memory.list_wf {a : Nat} {b : Byte} {m : Memory} (ha : a < 2 ^ 32) (hm : m.wf) (hlt : ∀ d ∈ m, a < d.1) :
    (Memory.list a b m).wf := by
  unfold Memory.list
  split
  · exact hm
  · exact Memory.wf_cons.2 ⟨hlt, ha, by assumption, hm⟩

theorem Memory.mem_write {m : Memory} {a : Nat} {b : Byte} {c : Host.Cell} (h : c ∈ Memory.write m a b) :
    c = (a, b) ∨ c ∈ m := by
  induction m with
  | nil => simpa using Memory.mem_list h
  | cons d m ih =>
    unfold Memory.write at h
    split at h
    · exact Memory.mem_list h
    · split at h
      · rcases Memory.mem_list h with h | h
        · exact .inl h
        · exact .inr (by simp [h])
      · rcases List.mem_cons.1 h with rfl | h
        · simp
        · rcases ih h with h | h
          · exact .inl h
          · exact .inr (by simp [h])

/-- A write keeps the canonical form. -/
theorem Memory.write_wf {m : Memory} {a : Nat} (b : Byte) (ha : a < 2 ^ 32) (hm : m.wf) : (Memory.write m a b).wf := by
  induction m with
  | nil => exact Memory.list_wf ha hm (by simp)
  | cons c m ih =>
    obtain ⟨hlt, hc, hv, hm'⟩ := Memory.wf_cons.1 hm
    unfold Memory.write
    split
    · rename_i hac
      refine Memory.list_wf ha hm fun d hd => ?_
      rcases List.mem_cons.1 hd with rfl | hd
      · exact hac
      · exact lt_trans hac (hlt d hd)
    · split
      · rename_i hac
        exact Memory.list_wf ha hm' fun d hd => hac ▸ hlt d hd
      · rename_i h1 h2
        refine Memory.wf_cons.2 ⟨fun d hd => ?_, hc, hv, ih hm'⟩
        rcases Memory.mem_write hd with rfl | hd
        · simp only; omega
        · exact hlt d hd

/-! ### Accesses -/

@[simp] theorem State.memoryGet_storeCell_other (s : State) {a x : Addr} (h : x ≠ a) (b : Byte) :
    (s.storeCell a b).memoryGet x = s.memoryGet x :=
  Memory.read_write_other b (fun e => h (BitVec.eq_of_toNat_eq e))

theorem State.memoryGet_storeCell_same {s : State} (hm : s.mem.wf) (a : Addr) (b : Byte) :
    (s.storeCell a b).memoryGet a = b := Memory.read_write_same hm a.toNat b

theorem State.storeCell_wf {s : State} (hm : s.mem.wf) (a : Addr) (b : Byte) : (s.storeCell a b).mem.wf :=
  Memory.write_wf b a.isLt hm

theorem State.mem_storeCell_written (s : State) (a x : Addr) (b : Byte) :
    x ∈ (s.storeCell a b).written ↔ x = a ∨ x ∈ s.written := by
  simp [List.mem_insert_iff]

/-- `MemWrite` of one byte. -/
theorem State.memWrite_byte (s : State) (addr : Addr) (v : Word) :
    s.memWrite addr .byte v = s.storeCell addr (v.extractLsb' 0 8) := by
  simp [State.memWrite, Width.bytes, List.range_succ]

/-- `MemWrite` of a word: four cells, from the lowest address up. -/
theorem State.memWrite_word (s : State) (addr : Addr) (v : Word) :
    s.memWrite addr .word v =
      (((s.storeCell addr (v.extractLsb' 0 8)).storeCell (addr + 1#32) (v.extractLsb' 8 8)).storeCell
        (addr + 2#32) (v.extractLsb' 16 8)).storeCell (addr + 3#32) (v.extractLsb' 24 8) := by
  simp [State.memWrite, Width.bytes, List.range_succ]

/-- What `MemWrite` leaves alone, whatever the width. -/
theorem State.memWrite_frame (s : State) (addr : Addr) (n : Width) (v : Word) :
    (s.memWrite addr n v).regs = s.regs ∧ (s.memWrite addr n v).cfg = s.cfg ∧
      (s.memWrite addr n v).host = s.host := by
  cases n <;> simp [State.memWrite_byte, State.memWrite_word]

theorem State.memWrite_wf {s : State} (hm : s.mem.wf) (addr : Addr) (n : Width) (v : Word) :
    (s.memWrite addr n v).mem.wf := by
  cases n
  · rw [State.memWrite_byte]; exact State.storeCell_wf hm _ _
  · rw [State.memWrite_word]
    exact State.storeCell_wf (State.storeCell_wf (State.storeCell_wf (State.storeCell_wf hm _ _) _ _) _ _) _ _

/-- Everything a store instruction's access can do. -/
theorem State.store_cases (s : State) (addr : Addr) (n : Width) (v : Word) :
    (s.store addr n v = .next (s.memWrite addr n v) ∧
      ∀ c, s.cfg.memCapacity = some c → (s.memWrite addr n v).written.length ≤ c) ∨
    (s.store addr n v = .fault .storageExhausted ∧
      ∃ c, s.cfg.memCapacity = some c ∧ c < (s.memWrite addr n v).written.length) := by
  unfold State.store Config.holds
  cases h : s.cfg.memCapacity with
  | none => simp
  | some c =>
    by_cases hc : (s.memWrite addr n v).written.length ≤ c
    · exact .inl (by simp [hc])
    · exact .inr (by simp [hc]; omega)

/-- The only next state of a store instruction's access is that of `MemWrite`. -/
theorem State.store_next {s t : State} {addr : Addr} {n : Width} {v : Word} (h : s.store addr n v = .next t) :
    t = s.memWrite addr n v := by
  rcases State.store_cases s addr n v with ⟨h', _⟩ | ⟨h', _⟩ <;> rw [h'] at h
  · exact (Host.Outcome.next.inj h).symm
  · cases h

end Sys2Proof.Machine
end

