-- ==== Sys2Proof/Laws/Access.lean ====
section
/-! SUPPORT. Everything `MemWrite` does, said once (20_memory.md R57): the bytes stored, the cells left alone, what joins
`W`, and how many entries the sparse store gains (R72). -/

namespace Sys2Proof.Machine

/-- The bytes `v[8k+7:8k]` of R57, as a slice and as a shift. -/
theorem extract_byte (v : Word) (k : Nat) : v.extractLsb' k 8 = (v >>> k).setWidth 8 := by
  apply BitVec.eq_of_getLsbD_eq
  intro i hi
  simp [hi]

/-- The first cell of an access is the one at its address. -/
@[simp] theorem addr_add_zero (a : Addr) : a + BitVec.ofNat 32 0 = a := by simp

theorem insert_length (l : List Addr) (a : Addr) : (l.insert a).length = l.length + (if a ∈ l then 0 else 1) := by
  by_cases h : a ∈ l <;> simp [h]

/-- The four cell writes of a word store go to four different addresses (R57). -/
theorem addr_add_ne (a : Addr) {j k : Nat} (hj : j < 4) (hk : k < 4) (h : j ≠ k) :
    a + BitVec.ofNat 32 j ≠ a + BitVec.ofNat 32 k := by
  intro e
  have e' : BitVec.ofNat 32 j = BitVec.ofNat 32 k := by simpa using e
  have := congrArg BitVec.toNat e'
  simp at this
  omega

theorem State.memWrite_stored {s : State} (hw : s.mem.wf) (a : Addr) (n : Width) (v : Word) :
    ∀ k < n.bytes, (s.memWrite a n v).memoryGet (a + BitVec.ofNat 32 k) = (v >>> (8 * k)).setWidth 8 := by
  intro k hk
  rw [← extract_byte]
  cases n with
  | byte =>
    obtain rfl : k = 0 := by simp only [Width.bytes] at hk; omega
    rw [State.memWrite_byte, addr_add_zero, State.memoryGet_storeCell_same hw]
  | word =>
    simp only [Width.bytes] at hk
    have w1 := State.storeCell_wf hw a (v.extractLsb' 0 8)
    have w2 := State.storeCell_wf w1 (a + 1#32) (v.extractLsb' 8 8)
    have w3 := State.storeCell_wf w2 (a + 2#32) (v.extractLsb' 16 8)
    have ne := fun (j k : Nat) hj hk h => @addr_add_ne a j k hj hk h
    rw [State.memWrite_word]
    interval_cases k
    · have n1 : a ≠ a + 1#32 := by simp
      have n2 : a ≠ a + 2#32 := by simp
      have n3 : a ≠ a + 3#32 := by simp
      rw [addr_add_zero, State.memoryGet_storeCell_other _ n3, State.memoryGet_storeCell_other _ n2,
        State.memoryGet_storeCell_other _ n1, State.memoryGet_storeCell_same hw]
    · rw [State.memoryGet_storeCell_other _ (ne 1 3 (by omega) (by omega) (by omega)),
        State.memoryGet_storeCell_other _ (ne 1 2 (by omega) (by omega) (by omega)),
        State.memoryGet_storeCell_same w1]
    · rw [State.memoryGet_storeCell_other _ (ne 2 3 (by omega) (by omega) (by omega)),
        State.memoryGet_storeCell_same w2]
    · rw [State.memoryGet_storeCell_same w3]

theorem State.memWrite_elsewhere (s : State) (a : Addr) (n : Width) (v : Word) (x : Addr)
    (h : ∀ k < n.bytes, x ≠ a + BitVec.ofNat 32 k) : (s.memWrite a n v).memoryGet x = s.memoryGet x := by
  cases n with
  | byte =>
    have h0 := h 0 (by decide)
    rw [addr_add_zero] at h0
    rw [State.memWrite_byte, State.memoryGet_storeCell_other _ h0]
  | word =>
    have h0 := h 0 (by decide)
    rw [addr_add_zero] at h0
    rw [State.memWrite_word, State.memoryGet_storeCell_other _ (h 3 (by decide)),
      State.memoryGet_storeCell_other _ (h 2 (by decide)), State.memoryGet_storeCell_other _ (h 1 (by decide)),
      State.memoryGet_storeCell_other _ h0]

theorem State.mem_memWrite_written (s : State) (a : Addr) (n : Width) (v : Word) (x : Addr) :
    x ∈ (s.memWrite a n v).written ↔ x ∈ s.written ∨ ∃ k < n.bytes, x = a + BitVec.ofNat 32 k := by
  cases n with
  | byte =>
    rw [State.memWrite_byte, State.mem_storeCell_written]
    simp only [Width.bytes, Nat.lt_one_iff, exists_eq_left, addr_add_zero]
    tauto
  | word =>
    rw [State.memWrite_word]
    simp only [State.mem_storeCell_written, Width.bytes]
    constructor
    · rintro (h | h | h | h | h)
      · exact .inr ⟨3, by omega, h⟩
      · exact .inr ⟨2, by omega, h⟩
      · exact .inr ⟨1, by omega, h⟩
      · exact .inr ⟨0, by omega, by simpa using h⟩
      · exact .inl h
    · rintro (h | ⟨k, hk, h⟩)
      · simp [h]
      · interval_cases k <;> simp_all

/-- Everything `MemWrite` does. -/
theorem State.memWrite_storesOnly {s : State} (hw : s.mem.wf) (a : Addr) (n : Width) (v : Word) :
    StoresOnly s (s.memWrite a n v) a n.bytes (fun k => (v >>> (8 * k)).setWidth 8) where
  stored    := State.memWrite_stored hw a n v
  elsewhere := State.memWrite_elsewhere s a n v
  written   := State.mem_memWrite_written s a n v
  registers := State.readReg_congr (State.memWrite_frame s a n v).1
  params    := (State.memWrite_frame s a n v).2.1
  input     := (State.memWrite_frame s a n v).2.2

/-- `MemWrite` adds as many entries as there are new addresses among its cells. -/
theorem State.memWrite_length (s : State) (a : Addr) (n : Width) (v : Word) :
    (s.memWrite a n v).written.length = s.written.length + newEntries s a n.bytes := by
  cases n with
  | byte =>
    rw [State.memWrite_byte]
    simp only [State.storeCell_written, insert_length, newEntries, Width.bytes]
    simp only [List.range_one, List.filter_cons, List.filter_nil, addr_add_zero]
    split_ifs <;> simp_all
  | word =>
    have n1 : a + 1#32 ≠ a := by simp
    have n2 : a + 2#32 ≠ a := by simp
    have n3 : a + 3#32 ≠ a := by simp
    rw [State.memWrite_word]
    simp only [State.storeCell_written, insert_length, List.mem_insert_iff, newEntries, Width.bytes, List.range_succ,
      List.range_zero, List.nil_append, List.filter_append, List.length_append]
    simp [List.filter_cons, n1, n2, n3]
    split_ifs <;> simp_all

end Sys2Proof.Machine
end

