-- ==== Sys2Proof/Laws/Decode.lean ====
section
/-! SUPPORT. Words, fields and formats (30_encoding.md R93 to R97): what each field of a formatted word is, that a word is
the format of its own fields, and what it is for a word to match a row of the opcode table. -/

namespace Sys2Proof

/-! ### Format R: the fields of a formatted word, and a word from its fields -/

@[simp] theorem wordOpcode_formatR (f7 : BitVec 7) (rs2 rs1 : RegIdx) (f3 : BitVec 3) (rd : RegIdx) (op : BitVec 7) :
    wordOpcode (formatR f7 rs2 rs1 f3 rd op) = op := by
  apply BitVec.eq_of_getLsbD_eq
  intro i hi
  simp only [formatR, wordOpcode, BitVec.getLsbD_extractLsb', BitVec.getLsbD_append]
  interval_cases i <;> simp

@[simp] theorem wordRd_formatR (f7 : BitVec 7) (rs2 rs1 : RegIdx) (f3 : BitVec 3) (rd : RegIdx) (op : BitVec 7) :
    wordRd (formatR f7 rs2 rs1 f3 rd op) = rd := by
  apply BitVec.eq_of_getLsbD_eq
  intro i hi
  simp only [formatR, wordRd, BitVec.getLsbD_extractLsb', BitVec.getLsbD_append]
  interval_cases i <;> simp

@[simp] theorem wordFunct3_formatR (f7 : BitVec 7) (rs2 rs1 : RegIdx) (f3 : BitVec 3) (rd : RegIdx) (op : BitVec 7) :
    wordFunct3 (formatR f7 rs2 rs1 f3 rd op) = f3 := by
  apply BitVec.eq_of_getLsbD_eq
  intro i hi
  simp only [formatR, wordFunct3, BitVec.getLsbD_extractLsb', BitVec.getLsbD_append]
  interval_cases i <;> simp

@[simp] theorem wordRs1_formatR (f7 : BitVec 7) (rs2 rs1 : RegIdx) (f3 : BitVec 3) (rd : RegIdx) (op : BitVec 7) :
    wordRs1 (formatR f7 rs2 rs1 f3 rd op) = rs1 := by
  apply BitVec.eq_of_getLsbD_eq
  intro i hi
  simp only [formatR, wordRs1, BitVec.getLsbD_extractLsb', BitVec.getLsbD_append]
  interval_cases i <;> simp

@[simp] theorem wordRs2_formatR (f7 : BitVec 7) (rs2 rs1 : RegIdx) (f3 : BitVec 3) (rd : RegIdx) (op : BitVec 7) :
    wordRs2 (formatR f7 rs2 rs1 f3 rd op) = rs2 := by
  apply BitVec.eq_of_getLsbD_eq
  intro i hi
  simp only [formatR, wordRs2, BitVec.getLsbD_extractLsb', BitVec.getLsbD_append]
  interval_cases i <;> simp

@[simp] theorem wordFunct7_formatR (f7 : BitVec 7) (rs2 rs1 : RegIdx) (f3 : BitVec 3) (rd : RegIdx) (op : BitVec 7) :
    wordFunct7 (formatR f7 rs2 rs1 f3 rd op) = f7 := by
  apply BitVec.eq_of_getLsbD_eq
  intro i hi
  simp only [formatR, wordFunct7, BitVec.getLsbD_extractLsb', BitVec.getLsbD_append]
  interval_cases i <;> simp

/-- "Every bit of a matching word is either matched by the mask or belongs to a field" (R107). -/
theorem formatR_fields (w : Word) :
    formatR (wordFunct7 w) (wordRs2 w) (wordRs1 w) (wordFunct3 w) (wordRd w) (wordOpcode w) = w := by
  apply BitVec.eq_of_getLsbD_eq
  intro i hi
  simp only [formatR, wordFunct7, wordRs2, wordRs1, wordFunct3, wordRd, wordOpcode, BitVec.getLsbD_extractLsb',
    BitVec.getLsbD_append]
  interval_cases i <;> simp

/-! ### The other formats, as format R with the immediate's bits in the places of `funct7`, `rs2` and `rd` -/

theorem formatI_eq (imm : Word) (rs1 : RegIdx) (f3 : BitVec 3) (rd : RegIdx) (op : BitVec 7) :
    formatI imm rs1 f3 rd op = formatR (imm.extractLsb' 5 7) (imm.extractLsb' 0 5) rs1 f3 rd op := by
  apply BitVec.eq_of_getLsbD_eq
  intro i hi
  simp only [formatI, formatR, BitVec.getLsbD_extractLsb', BitVec.getLsbD_append]
  interval_cases i <;> simp

theorem formatS_eq (imm : Word) (rs2 rs1 : RegIdx) (f3 : BitVec 3) (op : BitVec 7) :
    formatS imm rs2 rs1 f3 op = formatR (imm.extractLsb' 5 7) rs2 rs1 f3 (imm.extractLsb' 0 5) op := rfl

theorem formatU_eq (imm : Word) (rd : RegIdx) (op : BitVec 7) :
    formatU imm rd op =
      formatR (imm.extractLsb' 25 7) (imm.extractLsb' 20 5) (imm.extractLsb' 15 5) (imm.extractLsb' 12 3) rd op := by
  apply BitVec.eq_of_getLsbD_eq
  intro i hi
  simp only [formatU, formatR, BitVec.getLsbD_extractLsb', BitVec.getLsbD_append]
  interval_cases i <;> simp

/-! ### The fields of the other formats -/

@[simp] theorem wordOpcode_formatI (imm : Word) (rs1 : RegIdx) (f3 : BitVec 3) (rd : RegIdx) (op : BitVec 7) :
    wordOpcode (formatI imm rs1 f3 rd op) = op := by rw [formatI_eq, wordOpcode_formatR]

@[simp] theorem wordRd_formatI (imm : Word) (rs1 : RegIdx) (f3 : BitVec 3) (rd : RegIdx) (op : BitVec 7) :
    wordRd (formatI imm rs1 f3 rd op) = rd := by rw [formatI_eq, wordRd_formatR]

@[simp] theorem wordFunct3_formatI (imm : Word) (rs1 : RegIdx) (f3 : BitVec 3) (rd : RegIdx) (op : BitVec 7) :
    wordFunct3 (formatI imm rs1 f3 rd op) = f3 := by rw [formatI_eq, wordFunct3_formatR]

@[simp] theorem wordRs1_formatI (imm : Word) (rs1 : RegIdx) (f3 : BitVec 3) (rd : RegIdx) (op : BitVec 7) :
    wordRs1 (formatI imm rs1 f3 rd op) = rs1 := by rw [formatI_eq, wordRs1_formatR]

@[simp] theorem wordOpcode_formatS (imm : Word) (rs2 rs1 : RegIdx) (f3 : BitVec 3) (op : BitVec 7) :
    wordOpcode (formatS imm rs2 rs1 f3 op) = op := by rw [formatS_eq, wordOpcode_formatR]

@[simp] theorem wordFunct3_formatS (imm : Word) (rs2 rs1 : RegIdx) (f3 : BitVec 3) (op : BitVec 7) :
    wordFunct3 (formatS imm rs2 rs1 f3 op) = f3 := by rw [formatS_eq, wordFunct3_formatR]

@[simp] theorem wordRs1_formatS (imm : Word) (rs2 rs1 : RegIdx) (f3 : BitVec 3) (op : BitVec 7) :
    wordRs1 (formatS imm rs2 rs1 f3 op) = rs1 := by rw [formatS_eq, wordRs1_formatR]

@[simp] theorem wordRs2_formatS (imm : Word) (rs2 rs1 : RegIdx) (f3 : BitVec 3) (op : BitVec 7) :
    wordRs2 (formatS imm rs2 rs1 f3 op) = rs2 := by rw [formatS_eq, wordRs2_formatR]

@[simp] theorem wordOpcode_formatU (imm : Word) (rd : RegIdx) (op : BitVec 7) :
    wordOpcode (formatU imm rd op) = op := by rw [formatU_eq, wordOpcode_formatR]

@[simp] theorem wordRd_formatU (imm : Word) (rd : RegIdx) (op : BitVec 7) :
    wordRd (formatU imm rd op) = rd := by rw [formatU_eq, wordRd_formatR]

/-! ### Immediates (R97) -/

/-- A 12-bit immediate in range is the sign extension of its low 12 bits. -/
theorem signExtend_extract12 {imm : Word} (h : immFits12 imm = true) :
    (imm.extractLsb' 0 12).signExtend 32 = imm := by
  simp only [immFits12, Bool.and_eq_true, decide_eq_true_eq] at h
  obtain ⟨h1, h2⟩ := h
  apply BitVec.eq_of_toInt_eq
  have hl : (imm.extractLsb' 0 12).toNat = imm.toNat % 4096 := by simp
  have hi := imm.isLt
  rw [BitVec.toInt_signExtend_of_le (by omega), BitVec.toInt_eq_toNat_cond (x := imm.extractLsb' 0 12), hl]
  rw [BitVec.toInt_eq_toNat_cond] at h1 h2 ⊢
  split at h1 <;> split <;> simp_all <;> omega

/-- A sign extension of 12 bits is in range. -/
theorem immFits12_signExtend (v : BitVec 12) : immFits12 (v.signExtend 32) = true := by
  simp only [immFits12, Bool.and_eq_true, decide_eq_true_eq]
  rw [BitVec.toInt_signExtend_of_le (by omega)]
  have h1 := BitVec.toInt_lt (x := v)
  have h2 := BitVec.le_toInt (x := v)
  omega

theorem extract12_signExtend (v : BitVec 12) : (v.signExtend 32).extractLsb' 0 12 = v := by
  apply BitVec.eq_of_getLsbD_eq
  intro i hi
  simp only [BitVec.getLsbD_extractLsb', BitVec.getLsbD_signExtend]
  interval_cases i <;> simp

/-- The immediate of format I, read back. -/
theorem wordImmI_formatI {imm : Word} (h : immFits12 imm = true) (rs1 : RegIdx) (f3 : BitVec 3) (rd : RegIdx)
    (op : BitVec 7) : wordImmI (formatI imm rs1 f3 rd op) = imm := by
  have e : (formatI imm rs1 f3 rd op).extractLsb' 20 12 = imm.extractLsb' 0 12 := by
    apply BitVec.eq_of_getLsbD_eq
    intro i hi
    simp only [formatI, BitVec.getLsbD_extractLsb', BitVec.getLsbD_append]
    interval_cases i <;> simp
  rw [wordImmI, e, signExtend_extract12 h]

/-- The immediate of format S, read back. -/
theorem wordImmS_formatS {imm : Word} (h : immFits12 imm = true) (rs2 rs1 : RegIdx) (f3 : BitVec 3)
    (op : BitVec 7) : wordImmS (formatS imm rs2 rs1 f3 op) = imm := by
  have e : ((formatS imm rs2 rs1 f3 op).extractLsb' 25 7 ++ (formatS imm rs2 rs1 f3 op).extractLsb' 7 5 : BitVec 12) =
      imm.extractLsb' 0 12 := by
    apply BitVec.eq_of_getLsbD_eq
    intro i hi
    simp only [formatS, BitVec.getLsbD_extractLsb', BitVec.getLsbD_append]
    interval_cases i <;> simp
  rw [wordImmS, e, signExtend_extract12 h]

/-- The immediate of format U, read back. -/
theorem wordImmU_formatU {imm : Word} (h : immIsUpper imm = true) (rd : RegIdx) (op : BitVec 7) :
    wordImmU (formatU imm rd op) = imm := by
  have h0 : imm.extractLsb' 0 12 = 0#12 := by simpa [immIsUpper] using h
  apply BitVec.eq_of_getLsbD_eq
  intro i hi
  by_cases h12 : i < 12
  · have := congrArg (fun v => v.getLsbD i) h0
    simp only [BitVec.getLsbD_extractLsb', BitVec.getLsbD_zero, Nat.zero_add, h12, decide_true, Bool.true_and] at this
    rw [wordImmU, BitVec.getLsbD_append]
    simp [h12, this]
  · simp only [wordImmU, formatU, BitVec.getLsbD_extractLsb', BitVec.getLsbD_append]
    interval_cases i <;> simp_all

/-- The document's sign extension is the sign extension of the low 12 bits (R97). -/
theorem shiftSext12_eq (v : Word) : Machine.shiftSext12 v = (v.extractLsb' 0 12).signExtend 32 := by
  apply BitVec.eq_of_getLsbD_eq
  intro i hi
  simp only [Machine.shiftSext12, BitVec.getLsbD_sshiftRight, BitVec.getLsbD_shiftLeft, BitVec.msb_shiftLeft,
    BitVec.getLsbD_signExtend, BitVec.getLsbD_extractLsb', BitVec.msb_extractLsb']
  interval_cases i <;> simp [BitVec.getMsbD]

/-! ### The slices of a word that the statements name are its fields -/

theorem slice_rd (w : Word) : (w >>> 7).setWidth 5 = wordRd w := by
  apply BitVec.eq_of_getLsbD_eq
  intro i hi
  simp [wordRd, hi]

theorem slice_rs1 (w : Word) : (w >>> 15).setWidth 5 = wordRs1 w := by
  apply BitVec.eq_of_getLsbD_eq
  intro i hi
  simp [wordRs1, hi]

theorem slice_rs2 (w : Word) : (w >>> 20).setWidth 5 = wordRs2 w := by
  apply BitVec.eq_of_getLsbD_eq
  intro i hi
  simp [wordRs2, hi]

theorem slice_immI (w : Word) : Machine.shiftSext12 (w >>> 20) = wordImmI w := by
  rw [shiftSext12_eq, wordImmI]
  congr 1

theorem slice_immS (w : Word) :
    Machine.shiftSext12 (((w >>> 25) <<< 5) ||| ((w >>> 7) &&& 0x1F#32)) = wordImmS w := by
  rw [shiftSext12_eq, wordImmS]
  congr 1
  apply BitVec.eq_of_getLsbD_eq
  intro i hi
  simp only [BitVec.getLsbD_extractLsb', BitVec.getLsbD_append, BitVec.getLsbD_or, BitVec.getLsbD_and,
    BitVec.getLsbD_shiftLeft, BitVec.getLsbD_ushiftRight]
  interval_cases i <;> simp

theorem slice_immU (w : Word) : (w >>> 12) <<< 12 = wordImmU w := by
  rw [wordImmU]
  apply BitVec.eq_of_getLsbD_eq
  intro i hi
  simp only [BitVec.getLsbD_extractLsb', BitVec.getLsbD_append, BitVec.getLsbD_shiftLeft, BitVec.getLsbD_ushiftRight]
  interval_cases i <;> simp

/-! ### A word from its own fields, for the other formats -/

theorem extract_sub12 (v : Word) (lo n : Nat) (h : lo + n ≤ 12) :
    (v.extractLsb' 0 12).extractLsb' lo n = v.extractLsb' lo n := by
  apply BitVec.eq_of_getLsbD_eq
  intro i hi
  have : lo + i < 12 := by omega
  simp [this]

theorem formatI_fields (w : Word) :
    formatI (wordImmI w) (wordRs1 w) (wordFunct3 w) (wordRd w) (wordOpcode w) = w := by
  have e : (wordImmI w).extractLsb' 0 12 = w.extractLsb' 20 12 := by rw [wordImmI, extract12_signExtend]
  apply BitVec.eq_of_getLsbD_eq
  intro i hi
  rw [formatI, e]
  simp only [wordRs1, wordFunct3, wordRd, wordOpcode, BitVec.getLsbD_extractLsb', BitVec.getLsbD_append]
  interval_cases i <;> simp

theorem formatS_fields (w : Word) :
    formatS (wordImmS w) (wordRs2 w) (wordRs1 w) (wordFunct3 w) (wordOpcode w) = w := by
  have e : (wordImmS w).extractLsb' 0 12 = w.extractLsb' 25 7 ++ w.extractLsb' 7 5 := by
    rw [wordImmS, extract12_signExtend]
  apply BitVec.eq_of_getLsbD_eq
  intro i hi
  rw [formatS, ← extract_sub12 _ 5 7 (by omega), ← extract_sub12 _ 0 5 (by omega), e]
  simp only [wordRs1, wordRs2, wordFunct3, wordOpcode, BitVec.getLsbD_extractLsb', BitVec.getLsbD_append]
  interval_cases i <;> simp

theorem formatU_fields (w : Word) : formatU (wordImmU w) (wordRd w) (wordOpcode w) = w := by
  apply BitVec.eq_of_getLsbD_eq
  intro i hi
  simp only [formatU, wordImmU, wordRd, wordOpcode, BitVec.getLsbD_extractLsb', BitVec.getLsbD_append]
  interval_cases i <;> simp

theorem immIsUpper_wordImmU (w : Word) : immIsUpper (wordImmU w) = true := by
  simp only [immIsUpper, beq_iff_eq]
  apply BitVec.eq_of_getLsbD_eq
  intro i hi
  simp only [wordImmU, BitVec.getLsbD_extractLsb', BitVec.getLsbD_append]
  interval_cases i <;> simp

/-! ### Matching a row (R99 to R103) -/

theorem maskR (w : Word) :
    w &&& 0xFE00707F#32 = formatR (wordFunct7 w) 0 0 (wordFunct3 w) 0 (wordOpcode w) := by
  apply BitVec.eq_of_getLsbD_eq
  intro i hi
  simp only [formatR, wordFunct7, wordFunct3, wordOpcode, BitVec.getLsbD_and, BitVec.getLsbD_extractLsb',
    BitVec.getLsbD_append]
  interval_cases i <;> simp

theorem maskIS (w : Word) : w &&& 0x0000707F#32 = formatR 0 0 0 (wordFunct3 w) 0 (wordOpcode w) := by
  apply BitVec.eq_of_getLsbD_eq
  intro i hi
  simp only [formatR, wordFunct3, wordOpcode, BitVec.getLsbD_and, BitVec.getLsbD_extractLsb', BitVec.getLsbD_append]
  interval_cases i <;> simp

theorem maskU (w : Word) : w &&& 0x0000007F#32 = formatR 0 0 0 0 0 (wordOpcode w) := by
  apply BitVec.eq_of_getLsbD_eq
  intro i hi
  simp only [formatR, wordOpcode, BitVec.getLsbD_and, BitVec.getLsbD_extractLsb', BitVec.getLsbD_append]
  interval_cases i <;> simp

/-- A word matches a format R row exactly when its opcode, `funct7` and `funct3` are the row's. -/
theorem maskR_iff (w : Word) (f7 : BitVec 7) (f3 : BitVec 3) (op : BitVec 7) :
    w &&& 0xFE00707F#32 = formatR f7 0 0 f3 0 op ↔ wordFunct7 w = f7 ∧ wordFunct3 w = f3 ∧ wordOpcode w = op := by
  rw [maskR]
  constructor
  · intro h
    exact ⟨by simpa using congrArg wordFunct7 h, by simpa using congrArg wordFunct3 h,
      by simpa using congrArg wordOpcode h⟩
  · rintro ⟨rfl, rfl, rfl⟩; rfl

/-- A word matches a format I or S row exactly when its opcode and `funct3` are the row's. -/
theorem maskIS_iff (w : Word) (f3 : BitVec 3) (op : BitVec 7) :
    w &&& 0x0000707F#32 = formatR 0 0 0 f3 0 op ↔ wordFunct3 w = f3 ∧ wordOpcode w = op := by
  rw [maskIS]
  constructor
  · intro h
    exact ⟨by simpa using congrArg wordFunct3 h, by simpa using congrArg wordOpcode h⟩
  · rintro ⟨rfl, rfl⟩; rfl

/-- A word matches the format U row exactly when its opcode is the row's. -/
theorem maskU_iff (w : Word) (op : BitVec 7) :
    w &&& 0x0000007F#32 = formatR 0 0 0 0 0 op ↔ wordOpcode w = op := by
  rw [maskU]
  constructor
  · intro h; simpa using congrArg wordOpcode h
  · rintro rfl; rfl

end Sys2Proof
end

