-- ==== Sys2Proof/Laws/Exec.lean ====
section
/-! SUPPORT. What the meanings can do, said once: an instruction with a destination commits its result and nothing else; a
store is one access; every other effect of a step is a host move's. -/

namespace Sys2Proof.Machine

/-- An instruction that has a destination register answers the commit of its result (40_step_transaction.md R144). -/
theorem exec_of_rd {i : Instr} {rd : RegIdx} (h : i.rd? = some rd) (s : State) :
    ∃ v, s.result? i = some v ∧ exec i s = .next (s.writeReg rd v) := by
  cases i <;> simp only [Instr.rd?, Option.some.injEq, reduceCtorEq] at h <;> subst h <;>
    exact ⟨_, rfl, rfl⟩

/-- An instruction without a destination register is a store: one access at its effective address. -/
theorem exec_of_no_rd {i : Instr} (h : i.rd? = none) :
    ∃ n rs2 rs1 imm, i.rs2? = some rs2 ∧ i.rs1? = some rs1 ∧ i.imm? = some imm ∧
      ((n = Width.word ∧ i = .sw rs2 rs1 imm) ∨ (n = Width.byte ∧ i = .sb rs2 rs1 imm)) ∧
      ∀ s : State, exec i s = s.store (s.effAddr rs1 imm) n (s.readReg rs2) := by
  cases i <;> simp only [Instr.rd?, reduceCtorEq] at h
  · exact ⟨.word, _, _, _, rfl, rfl, rfl, .inl ⟨rfl, rfl⟩, fun _ => rfl⟩
  · exact ⟨.byte, _, _, _, rfl, rfl, rfl, .inr ⟨rfl, rfl⟩, fun _ => rfl⟩

/-- Everything an instruction that answers a next state can have done. -/
theorem exec_next {i : Instr} {s t : State} (h : exec i s = .next t) :
    (∃ rd v, i.rd? = some rd ∧ s.result? i = some v ∧ t = s.writeReg rd v) ∨
    (∃ n rs2 rs1 imm, ((n = Width.word ∧ i = .sw rs2 rs1 imm) ∨ (n = Width.byte ∧ i = .sb rs2 rs1 imm)) ∧
      t = s.memWrite (s.effAddr rs1 imm) n (s.readReg rs2) ∧
      ∀ c, s.cfg.memCapacity = some c → t.written.length ≤ c) := by
  cases hrd : i.rd? with
  | some rd =>
    obtain ⟨v, hv, he⟩ := exec_of_rd hrd s
    rw [he] at h
    exact .inl ⟨rd, v, rfl, hv, (Host.Outcome.next.inj h).symm⟩
  | none =>
    obtain ⟨n, rs2, rs1, imm, _, _, _, hi, he⟩ := exec_of_no_rd hrd
    rw [he] at h
    rcases State.store_cases s (s.effAddr rs1 imm) n (s.readReg rs2) with ⟨h', hc⟩ | ⟨h', _⟩ <;> rw [h'] at h
    · cases h
      exact .inr ⟨n, rs2, rs1, imm, hi, rfl, hc⟩
    · cases h

/-- An instruction never answers a refusal. -/
theorem exec_not_refused (i : Instr) (s : State) (r : Refusal) : exec i s ≠ .refused r := by
  cases hrd : i.rd? with
  | some rd => obtain ⟨v, _, he⟩ := exec_of_rd hrd s; simp [he]
  | none =>
    obtain ⟨n, rs2, rs1, imm, _, _, _, _, he⟩ := exec_of_no_rd hrd
    rcases State.store_cases s (s.effAddr rs1 imm) n (s.readReg rs2) with ⟨h', _⟩ | ⟨h', _⟩ <;> simp [he, h']

/-! ### The host's next move -/

theorem fetch_nil {s : State} (h : s.host = []) : fetch s = .settled s := by simp [fetch, h]

theorem fetch_cons {s : State} {m : HostMove} {rest : List HostMove} (h : s.host = m :: rest) :
    fetch s = fetchMove m { s with host := rest } := by simp [fetch, h]

/-- An instruction that a move presents runs in the state in which the move has been taken. -/
theorem fetchMove_run {m : HostMove} {s s' : State} {i : Instr} (h : fetchMove m s = .run i s') : s' = s := by
  cases m <;> simp only [fetchMove, fetchCycle, fetchWord, fetchLine] at h <;> (repeat' split at h) <;> cases h <;> rfl

/-- What a move that presents no instruction can have done. -/
theorem fetchMove_settled {m : HostMove} {s s' : State} (h : fetchMove m s = .settled s') :
    (s' = s) ∨ (s' = s.applyReset ∧ ∃ p, m = .cycle p ∧ p.rst = true) ∨
      (∃ i v, m = .writeReg i v ∧ s' = s.writeReg i v) := by
  cases m with
  | cycle p =>
    simp only [fetchMove, fetchCycle, fetchWord] at h
    split at h
    · cases h; exact .inr (.inl ⟨rfl, p, rfl, by assumption⟩)
    · repeat' split at h
      all_goals cases h
      all_goals exact .inl rfl
  | line text =>
    simp only [fetchMove, fetchLine] at h
    split at h <;> cases h
    exact .inl rfl
  | writeReg i v =>
    simp only [fetchMove] at h
    cases h
    exact .inr (.inr ⟨i, v, rfl, rfl⟩)

/-- An instruction changes neither the parameters nor what the host will do. -/
theorem exec_frame {i : Instr} {s t : State} (h : exec i s = .next t) : t.cfg = s.cfg ∧ t.host = s.host := by
  rcases exec_next h with ⟨rd, v, _, _, rfl⟩ | ⟨n, rs2, rs1, imm, _, rfl, _⟩
  · simp
  · exact (State.memWrite_frame _ _ _ _).2

/-! ### The step -/

/-- Everything a step that answers a next state can have done: nothing, when the host presents no more; else, in the state
in which the move has been taken, an instruction, or, with no instruction executed, nothing, a reset, or a register write. -/
theorem step_next {s t : State} (h : step s = .next t) :
    (s.host = [] ∧ t = s) ∨ ∃ m rest, s.host = m :: rest ∧
      ((∃ i, fetchMove m { s with host := rest } = .run i { s with host := rest } ∧
          exec i { s with host := rest } = .next t) ∨
        (fetchMove m { s with host := rest } = .settled t ∧
          (t = { s with host := rest } ∨
            (t = State.applyReset { s with host := rest } ∧ ∃ p, m = .cycle p ∧ p.rst = true) ∨
            ∃ i v, m = .writeReg i v ∧ t = State.writeReg { s with host := rest } i v))) := by
  cases hh : s.host with
  | nil => rw [step, fetch_nil hh] at h; cases h; exact .inl ⟨rfl, rfl⟩
  | cons m rest =>
    refine .inr ⟨m, rest, rfl, ?_⟩
    rw [step, fetch_cons hh] at h
    split at h
    · rename_i i s' hf
      obtain rfl := fetchMove_run hf
      exact .inl ⟨i, hf, h⟩
    · rename_i s' hf
      cases h
      exact .inr ⟨hf, fetchMove_settled hf⟩
    · cases h

/-! ### The ports -/

/-- `rf_we` is 1 exactly for an instruction with a destination other than register 0 (10_state.md R27). -/
theorem rfPorts_we {i : Instr} {s : State} : (rfPorts i s).we = true ↔ ∃ rd, i.rd? = some rd ∧ rd ≠ 0#5 := by
  simp [rfPorts, rfWaddr?, Option.isSome_filter, Option.any_eq_true]

/-- A move that executes no instruction drives no port. -/
theorem stepPorts_settled {s t : State} {m : HostMove} {rest : List HostMove} (h : s.host = m :: rest)
    (hm : fetchMove m { s with host := rest } = .settled t) : stepPorts s = RfPorts.idle := by
  rw [stepPorts, fetch_cons h, hm]

/-- The ports of a step are those of the instruction that the move executes. -/
theorem stepPorts_run {s : State} {m : HostMove} {rest : List HostMove} {i : Instr} (h : s.host = m :: rest)
    (hm : fetchMove m { s with host := rest } = .run i { s with host := rest }) :
    stepPorts s = rfPorts i { s with host := rest } := by
  rw [stepPorts, fetch_cons h, hm]

end Sys2Proof.Machine
end

