-- ==== Sys2Proof/Laws/PerInstr.lean ====
section
/-! SUPPORT. Statements made per instruction. Family EncodeHitsRow: the encoder's word of an instruction matches the row of
the opcode table that bears its name (30_encoding.md R99 to R103, R117), whatever its operands hold. -/

namespace Sys2Proof.Laws

/-- The mask and match of an instruction's row, from its place in the table. -/
def EncodeHitsRow.Statement (i : Instr) : Prop := ∀ r ∈ opTable, r.op = i.op → r.hits (encode i)

/-- The rows of the table, one by one. -/
theorem forall_opTable {P : OpRow → Prop} (h : opTable.Forall P) : ∀ r ∈ opTable, P r :=
  List.forall_iff_forall_mem.1 h

theorem EncodeHitsRow.add (rd rs1 rs2 : RegIdx) : EncodeHitsRow.Statement (.add rd rs1 rs2) := by
  refine forall_opTable ?_
  simp [opTable, opTableR, opTableI, opTableMU, Instr.op, OpRow.hits, encode, maskR]
  rfl

theorem EncodeHitsRow.sub (rd rs1 rs2 : RegIdx) : EncodeHitsRow.Statement (.sub rd rs1 rs2) := by
  refine forall_opTable ?_
  simp [opTable, opTableR, opTableI, opTableMU, Instr.op, OpRow.hits, encode, maskR]
  rfl

theorem EncodeHitsRow.and (rd rs1 rs2 : RegIdx) : EncodeHitsRow.Statement (.and rd rs1 rs2) := by
  refine forall_opTable ?_
  simp [opTable, opTableR, opTableI, opTableMU, Instr.op, OpRow.hits, encode, maskR]
  rfl

theorem EncodeHitsRow.or (rd rs1 rs2 : RegIdx) : EncodeHitsRow.Statement (.or rd rs1 rs2) := by
  refine forall_opTable ?_
  simp [opTable, opTableR, opTableI, opTableMU, Instr.op, OpRow.hits, encode, maskR]
  rfl

theorem EncodeHitsRow.xor (rd rs1 rs2 : RegIdx) : EncodeHitsRow.Statement (.xor rd rs1 rs2) := by
  refine forall_opTable ?_
  simp [opTable, opTableR, opTableI, opTableMU, Instr.op, OpRow.hits, encode, maskR]
  rfl

theorem EncodeHitsRow.slt (rd rs1 rs2 : RegIdx) : EncodeHitsRow.Statement (.slt rd rs1 rs2) := by
  refine forall_opTable ?_
  simp [opTable, opTableR, opTableI, opTableMU, Instr.op, OpRow.hits, encode, maskR]
  rfl

theorem EncodeHitsRow.sll (rd rs1 rs2 : RegIdx) : EncodeHitsRow.Statement (.sll rd rs1 rs2) := by
  refine forall_opTable ?_
  simp [opTable, opTableR, opTableI, opTableMU, Instr.op, OpRow.hits, encode, maskR]
  rfl

theorem EncodeHitsRow.sra (rd rs1 rs2 : RegIdx) : EncodeHitsRow.Statement (.sra rd rs1 rs2) := by
  refine forall_opTable ?_
  simp [opTable, opTableR, opTableI, opTableMU, Instr.op, OpRow.hits, encode, maskR]
  rfl

theorem EncodeHitsRow.nor (rd rs1 rs2 : RegIdx) : EncodeHitsRow.Statement (.nor rd rs1 rs2) := by
  refine forall_opTable ?_
  simp [opTable, opTableR, opTableI, opTableMU, Instr.op, OpRow.hits, encode, maskR]
  rfl

theorem EncodeHitsRow.sla (rd rs1 rs2 : RegIdx) : EncodeHitsRow.Statement (.sla rd rs1 rs2) := by
  refine forall_opTable ?_
  simp [opTable, opTableR, opTableI, opTableMU, Instr.op, OpRow.hits, encode, maskR]
  rfl

theorem EncodeHitsRow.addi (rd rs1 : RegIdx) (imm : Word) : EncodeHitsRow.Statement (.addi rd rs1 imm) := by
  refine forall_opTable ?_
  simp [opTable, opTableR, opTableI, opTableMU, Instr.op, OpRow.hits, encode, formatI_eq, maskIS]
  rfl

theorem EncodeHitsRow.andi (rd rs1 : RegIdx) (imm : Word) : EncodeHitsRow.Statement (.andi rd rs1 imm) := by
  refine forall_opTable ?_
  simp [opTable, opTableR, opTableI, opTableMU, Instr.op, OpRow.hits, encode, formatI_eq, maskIS]
  rfl

theorem EncodeHitsRow.ori (rd rs1 : RegIdx) (imm : Word) : EncodeHitsRow.Statement (.ori rd rs1 imm) := by
  refine forall_opTable ?_
  simp [opTable, opTableR, opTableI, opTableMU, Instr.op, OpRow.hits, encode, formatI_eq, maskIS]
  rfl

theorem EncodeHitsRow.xori (rd rs1 : RegIdx) (imm : Word) : EncodeHitsRow.Statement (.xori rd rs1 imm) := by
  refine forall_opTable ?_
  simp [opTable, opTableR, opTableI, opTableMU, Instr.op, OpRow.hits, encode, formatI_eq, maskIS]
  rfl

theorem EncodeHitsRow.slti (rd rs1 : RegIdx) (imm : Word) : EncodeHitsRow.Statement (.slti rd rs1 imm) := by
  refine forall_opTable ?_
  simp [opTable, opTableR, opTableI, opTableMU, Instr.op, OpRow.hits, encode, formatI_eq, maskIS]
  rfl

theorem EncodeHitsRow.lw (rd rs1 : RegIdx) (imm : Word) : EncodeHitsRow.Statement (.lw rd rs1 imm) := by
  refine forall_opTable ?_
  simp [opTable, opTableR, opTableI, opTableMU, Instr.op, OpRow.hits, encode, formatI_eq, maskIS]
  rfl

theorem EncodeHitsRow.lb (rd rs1 : RegIdx) (imm : Word) : EncodeHitsRow.Statement (.lb rd rs1 imm) := by
  refine forall_opTable ?_
  simp [opTable, opTableR, opTableI, opTableMU, Instr.op, OpRow.hits, encode, formatI_eq, maskIS]
  rfl

theorem EncodeHitsRow.sw (rs2 rs1 : RegIdx) (imm : Word) : EncodeHitsRow.Statement (.sw rs2 rs1 imm) := by
  refine forall_opTable ?_
  simp [opTable, opTableR, opTableI, opTableMU, Instr.op, OpRow.hits, encode, formatS_eq, maskIS]
  rfl

theorem EncodeHitsRow.sb (rs2 rs1 : RegIdx) (imm : Word) : EncodeHitsRow.Statement (.sb rs2 rs1 imm) := by
  refine forall_opTable ?_
  simp [opTable, opTableR, opTableI, opTableMU, Instr.op, OpRow.hits, encode, formatS_eq, maskIS]
  rfl

theorem EncodeHitsRow.lui (rd : RegIdx) (imm : Word) : EncodeHitsRow.Statement (.lui rd imm) := by
  refine forall_opTable ?_
  simp [opTable, opTableR, opTableI, opTableMU, Instr.op, OpRow.hits, encode, formatU_eq, maskU]
  rfl

end Sys2Proof.Laws
end

