-- ==== Sys2Proof/Tests/Slice0.lean ====
section
/-! SUPPORT. The model's own tests: ill-formed terms that WellFormed refuses; words written out bit by bit from the
format and match tables of 30_encoding.md; one step per instruction with the values of 95_test_vectors.md; text lines;
and, for every obligation with hypotheses, a witness that meets them. -/

namespace Sys2Proof.Tests
open Sys2Proof.Machine

/-! ### Helpers -/

/-- The state after reset with some registers set. -/
def regsOf (l : List (RegIdx × Word)) : State := l.foldl (fun s p => s.writeReg p.1 p.2) State.reset

/-- A state in a block with the extension set `ext`. -/
def withExt (ext : ExtRType) (s : State) : State := { s with cfg := { s.cfg with ext := ext } }

/-- A state in a block whose sparse store holds at most `c` entries. -/
def withCapacity (c : Nat) (s : State) : State := { s with cfg := { s.cfg with memCapacity := some c } }

/-- A state in which some cells have been stored to. -/
def withCells (l : List (Addr × Byte)) (s : State) : State := l.foldl (fun s c => s.storeCell c.1 c.2) s

/-- The state after a step on the word `w`, where it answers a next state. -/
def after (s : State) (w : Word) : Option State :=
  match step (s.presenting w []) with
  | .next t    => some t
  | .fault _   => none
  | .refused _ => none

/-- A register after a step on the word `w`. -/
def regAfter (s : State) (w : Word) (r : RegIdx) : Option Word := (after s w).map (fun t => t.readReg r)

/-- Some cells, and the size of `W`, after a step on the word `w`. -/
def cellsAfter (s : State) (w : Word) (l : List Addr) : Option (List Byte × Nat) :=
  (after s w).map (fun t => (l.map t.memoryGet, t.written.length))

/-- Whether a step stops for want of storage. -/
def stuck (s : State) (w : Word) : Bool :=
  match step (s.presenting w []) with
  | .next _    => false
  | .fault f   => f == .storageExhausted
  | .refused _ => false

/-- The cells after vector M1. -/
def m1 : List (Addr × Byte) := [(0x64, 0x04), (0x65, 0x03), (0x66, 0x02), (0x67, 0x01)]

/-- Registers 1 and 2 set. -/
def ab (a b : Word) : State := regsOf [(1, a), (2, b)]

/-! ### WellFormed refuses (R97: -2048 to +2047, and twelve low zeros; R91: the optional pair) -/

theorem test_wf_addi_low   : (Instr.addi 1 2 0xFFFFF7FF#32).wellFormed ExtRType.all = false := by decide
theorem test_wf_addi_high  : (Instr.addi 1 2 0x00000800#32).wellFormed ExtRType.all = false := by decide
theorem test_wf_andi       : (Instr.andi 1 2 0x00000800#32).wellFormed ExtRType.all = false := by decide
theorem test_wf_ori        : (Instr.ori 1 2 0xFFFFF7FF#32).wellFormed ExtRType.all = false := by decide
theorem test_wf_xori       : (Instr.xori 1 2 0x00001000#32).wellFormed ExtRType.all = false := by decide
theorem test_wf_slti       : (Instr.slti 1 2 0x80000000#32).wellFormed ExtRType.all = false := by decide
theorem test_wf_lw         : (Instr.lw 1 2 0x00000800#32).wellFormed ExtRType.all = false := by decide
theorem test_wf_lb         : (Instr.lb 1 2 0xFFFFF7FF#32).wellFormed ExtRType.all = false := by decide
theorem test_wf_sw         : (Instr.sw 1 2 0x00000800#32).wellFormed ExtRType.all = false := by decide
theorem test_wf_sb         : (Instr.sb 1 2 0xFFFFF7FF#32).wellFormed ExtRType.all = false := by decide
theorem test_wf_lui        : (Instr.lui 1 0x00001800#32).wellFormed ExtRType.all = false := by decide
theorem test_wf_nor        : (Instr.nor 1 2 3).wellFormed { nor := false, sla := true } = false := by decide
theorem test_wf_sla        : (Instr.sla 1 2 3).wellFormed { nor := true, sla := false } = false := by decide
theorem test_enabled_nor   : Op.enabled ExtRType.none (.reg .nor) = false := by decide
theorem test_enabled_sla   : Op.enabled ExtRType.none (.reg .sla) = false := by decide
theorem test_config_bucket : Config.build? ExtRType.none 0 none = none := by decide

/-! ### Decoding and encoding: one word per row, bit by bit in the order of R93 to R96, with the match values of R99 to
R103; the register fields hold 26 (rd), 5 (rs1) and 19 (rs2) -/

theorem test_decode_add :
    decode ExtRType.none 0b0000000_10011_00101_000_11010_0110011#32 = .instr (.add 26 5 19) ∧
      encode (.add 26 5 19) = 0b0000000_10011_00101_000_11010_0110011#32 := by decide

theorem test_decode_sub :
    decode ExtRType.none 0b0100000_10011_00101_000_11010_0110011#32 = .instr (.sub 26 5 19) ∧
      encode (.sub 26 5 19) = 0b0100000_10011_00101_000_11010_0110011#32 := by decide

theorem test_decode_sll :
    decode ExtRType.none 0b0000000_10011_00101_001_11010_0110011#32 = .instr (.sll 26 5 19) ∧
      encode (.sll 26 5 19) = 0b0000000_10011_00101_001_11010_0110011#32 := by decide

theorem test_decode_slt :
    decode ExtRType.none 0b0000000_10011_00101_010_11010_0110011#32 = .instr (.slt 26 5 19) ∧
      encode (.slt 26 5 19) = 0b0000000_10011_00101_010_11010_0110011#32 := by decide

theorem test_decode_xor :
    decode ExtRType.none 0b0000000_10011_00101_100_11010_0110011#32 = .instr (.xor 26 5 19) ∧
      encode (.xor 26 5 19) = 0b0000000_10011_00101_100_11010_0110011#32 := by decide

theorem test_decode_sra :
    decode ExtRType.none 0b0100000_10011_00101_101_11010_0110011#32 = .instr (.sra 26 5 19) ∧
      encode (.sra 26 5 19) = 0b0100000_10011_00101_101_11010_0110011#32 := by decide

theorem test_decode_or :
    decode ExtRType.none 0b0000000_10011_00101_110_11010_0110011#32 = .instr (.or 26 5 19) ∧
      encode (.or 26 5 19) = 0b0000000_10011_00101_110_11010_0110011#32 := by decide

theorem test_decode_and :
    decode ExtRType.none 0b0000000_10011_00101_111_11010_0110011#32 = .instr (.and 26 5 19) ∧
      encode (.and 26 5 19) = 0b0000000_10011_00101_111_11010_0110011#32 := by decide

theorem test_decode_sla :
    decode ⟨false, true⟩ 0b0100000_10011_00101_001_11010_0110011#32 = .instr (.sla 26 5 19) ∧
      encode (.sla 26 5 19) = 0b0100000_10011_00101_001_11010_0110011#32 := by decide

theorem test_decode_nor :
    decode ⟨true, false⟩ 0b0100000_10011_00101_110_11010_0110011#32 = .instr (.nor 26 5 19) ∧
      encode (.nor 26 5 19) = 0b0100000_10011_00101_110_11010_0110011#32 := by decide

theorem test_decode_addi :
    decode ExtRType.none 0b100000000101_00101_000_11010_0010011#32 = .instr (.addi 26 5 0xFFFFF805#32) ∧
      encode (.addi 26 5 0xFFFFF805#32) = 0b100000000101_00101_000_11010_0010011#32 := by decide

theorem test_decode_slti :
    decode ExtRType.none 0b100000000101_00101_010_11010_0010011#32 = .instr (.slti 26 5 0xFFFFF805#32) ∧
      encode (.slti 26 5 0xFFFFF805#32) = 0b100000000101_00101_010_11010_0010011#32 := by decide

theorem test_decode_xori :
    decode ExtRType.none 0b100000000101_00101_100_11010_0010011#32 = .instr (.xori 26 5 0xFFFFF805#32) ∧
      encode (.xori 26 5 0xFFFFF805#32) = 0b100000000101_00101_100_11010_0010011#32 := by decide

theorem test_decode_ori :
    decode ExtRType.none 0b100000000101_00101_110_11010_0010011#32 = .instr (.ori 26 5 0xFFFFF805#32) ∧
      encode (.ori 26 5 0xFFFFF805#32) = 0b100000000101_00101_110_11010_0010011#32 := by decide

theorem test_decode_andi :
    decode ExtRType.none 0b100000000101_00101_111_11010_0010011#32 = .instr (.andi 26 5 0xFFFFF805#32) ∧
      encode (.andi 26 5 0xFFFFF805#32) = 0b100000000101_00101_111_11010_0010011#32 := by decide

theorem test_decode_lb :
    decode ExtRType.none 0b011111111010_00101_000_11010_0000011#32 = .instr (.lb 26 5 0x000007FA#32) ∧
      encode (.lb 26 5 0x000007FA#32) = 0b011111111010_00101_000_11010_0000011#32 := by decide

theorem test_decode_lw :
    decode ExtRType.none 0b011111111010_00101_010_11010_0000011#32 = .instr (.lw 26 5 0x000007FA#32) ∧
      encode (.lw 26 5 0x000007FA#32) = 0b011111111010_00101_010_11010_0000011#32 := by decide

theorem test_decode_sb :
    decode ExtRType.none 0b1000001_10011_00101_000_00101_0100011#32 = .instr (.sb 19 5 0xFFFFF825#32) ∧
      encode (.sb 19 5 0xFFFFF825#32) = 0b1000001_10011_00101_000_00101_0100011#32 := by decide

theorem test_decode_sw :
    decode ExtRType.none 0b1000001_10011_00101_010_00101_0100011#32 = .instr (.sw 19 5 0xFFFFF825#32) ∧
      encode (.sw 19 5 0xFFFFF825#32) = 0b1000001_10011_00101_010_00101_0100011#32 := by decide

theorem test_decode_lui :
    decode ExtRType.none 0b10000000000000000001_11010_0110111#32 = .instr (.lui 26 0x80001000#32) ∧
      encode (.lui 26 0x80001000#32) = 0b10000000000000000001_11010_0110111#32 := by decide

/-- R105, and section 7 of the test vectors: words that are Unknown, with `nor` and `sla` absent. -/
theorem test_decode_unknown :
    ([0x00000000, 0xFFFFFFFF, 0x001152B3, 0x0020B1B3, 0x022081B3, 0x202081B3, 0x402091B3, 0x4020E1B3, 0x4020C1B3,
      0x00109293, 0x4010D293, 0x0000B293, 0x00009203, 0x0000C203, 0x00309023, 0x00001117, 0x0000006F, 0x00008067,
      0x00208463, 0x0FF0000F, 0x00000073, 0x00100073, 0x00000001] : List Word).all
      (fun w => (decode ExtRType.none w).cls == .unknown) = true := by decide

/-! ### One step per instruction (sections 1 to 6 of the test vectors) -/

theorem test_add_carries_out : regAfter (ab 0xFFFFFFFF#32 1#32) 0x002081B3#32 3 = some 0x00000000#32 := by decide
theorem test_add_same_register : regAfter (regsOf [(1, 0x40000001#32)]) 0x001080B3#32 1 = some 0x80000002#32 := by decide
theorem test_sub_order : regAfter (ab 5#32 7#32) 0x402081B3#32 3 = some 0xFFFFFFFE#32 := by decide
theorem test_sub_overflow : regAfter (ab 0#32 0x80000000#32) 0x402081B3#32 3 = some 0x80000000#32 := by decide
theorem test_and : regAfter (ab 0x0000FF0F#32 0x00F0F0FF#32) 0x0020F1B3#32 3 = some 0x0000F00F#32 := by decide
theorem test_or : regAfter (ab 0x0000FF0F#32 0x00F0F0FF#32) 0x0020E1B3#32 3 = some 0x00F0FFFF#32 := by decide
theorem test_xor : regAfter (ab 0x0000FF0F#32 0x00F0F0FF#32) 0x0020C1B3#32 3 = some 0x00F00FF0#32 := by decide
theorem test_slt_signed : regAfter (ab 0xFFFFFFFF#32 1#32) 0x0020A1B3#32 3 = some 0x00000001#32 := by decide
theorem test_slt_extremes : regAfter (ab 0x7FFFFFFF#32 0x80000000#32) 0x0020A1B3#32 3 = some 0x00000000#32 := by decide
theorem test_sll_amount_33 : regAfter (ab 1#32 0x00000021#32) 0x002091B3#32 3 = some 0x00000002#32 := by decide
theorem test_sll_amount_minus_1 : regAfter (ab 1#32 0xFFFFFFFF#32) 0x002091B3#32 3 = some 0x80000000#32 := by decide
theorem test_sra_sign : regAfter (ab 0x80000000#32 0x0000001F#32) 0x4020D1B3#32 3 = some 0xFFFFFFFF#32 := by decide
theorem test_sra_amount_32 : regAfter (ab 0x80000000#32 0x00000020#32) 0x4020D1B3#32 3 = some 0x80000000#32 := by decide
theorem test_nor_logical :
    regAfter (withExt ExtRType.all (ab 0#32 8#32)) 0x4020E1B3#32 3 = some 0x00000000#32 ∧
      regAfter (withExt ExtRType.all (ab 0#32 0#32)) 0x4020E1B3#32 3 = some 0x00000001#32 := by decide
theorem test_nor_absent : regAfter (regsOf [(3, 0x55#32)]) 0x4020E1B3#32 3 = some 0x55#32 := by decide
theorem test_sla : regAfter (withExt ExtRType.all (ab 0xC0000001#32 1#32)) 0x402091B3#32 3 = some 0x80000002#32 := by decide
theorem test_sla_absent : regAfter (regsOf [(3, 0x55#32)]) 0x402091B3#32 3 = some 0x55#32 := by decide
theorem test_addi_minus_1 : regAfter (regsOf [(1, 3#32)]) 0xFFF08293#32 5 = some 0x00000002#32 := by decide
theorem test_addi_lowest : regAfter State.reset 0x80008293#32 5 = some 0xFFFFF800#32 := by decide
theorem test_andi : regAfter (regsOf [(1, 0xFFFFFFFF#32)]) 0x8000F293#32 5 = some 0xFFFFF800#32 := by decide
theorem test_ori : regAfter (regsOf [(1, 0x000000F0#32)]) 0x00A0E293#32 5 = some 0x000000FA#32 := by decide
theorem test_xori : regAfter (regsOf [(1, 0xFFFFFFFF#32)]) 0x7FF0C293#32 5 = some 0xFFFFF800#32 := by decide
theorem test_slti_below : regAfter (regsOf [(1, 0xFFFFFFFE#32)]) 0xFFF0A293#32 5 = some 0x00000001#32 := by decide
theorem test_slti_equal : regAfter (regsOf [(1, 0x0000000A#32)]) 0x00A0A293#32 5 = some 0x00000000#32 := by decide
theorem test_lui : regAfter (regsOf [(2, 0xDEADBEEF#32)]) 0x80000137#32 2 = some 0x80000000#32 := by decide
theorem test_register_zero : regAfter (ab 5#32 7#32) 0x00208033#32 0 = some 0x00000000#32 := by decide

/-- M1: little-endian. -/
theorem test_sw : cellsAfter (regsOf [(1, 0x64#32), (3, 0x01020304#32)]) 0x0030A023#32 [0x64, 0x65, 0x66, 0x67] =
    some ([0x04, 0x03, 0x02, 0x01], 4) := by decide
/-- M6: an access that wraps around. -/
theorem test_sw_wraps : cellsAfter (regsOf [(1, 0xFFFFFFFD#32), (3, 0xA1B2C3D4#32)]) 0x0030A023#32
    [0xFFFFFFFD, 0xFFFFFFFE, 0xFFFFFFFF, 0x00000000] = some ([0xD4, 0xC3, 0xB2, 0xA1], 4) := by decide
/-- M13: the lowest offset. -/
theorem test_sb : cellsAfter (regsOf [(1, 0x1000#32), (3, 0xCAFEBABE#32)]) 0x80308023#32 [0x7FF, 0x800, 0x801] =
    some ([0x00, 0xBE, 0x00], 1) := by decide
/-- M3: a misaligned load. -/
theorem test_lw_misaligned : regAfter (withCells m1 (regsOf [(1, 0x64#32)])) 0x0010A203#32 4 = some 0x00010203#32 := by decide
/-- M17: a load of cells never stored to. -/
theorem test_lw_fresh : regAfter (regsOf [(4, 0xFFFFFFFF#32)]) 0x0000A203#32 4 = some 0x00000000#32 := by decide
/-- M9: a negative byte. -/
theorem test_lb_sign : regAfter (withCells [(0x64, 0xFF)] (regsOf [(1, 0x64#32)])) 0x00008203#32 4 = some 0xFFFFFFFF#32 := by
  decide
/-- M2: a positive byte, with an offset. -/
theorem test_lb_offset : regAfter (withCells m1 (regsOf [(1, 0x64#32)])) 0x00308203#32 4 = some 0x00000001#32 := by decide
/-- R57: storing zero still allocates. -/
theorem test_sb_zero : cellsAfter (regsOf [(1, 0x64#32)]) 0x00008023#32 [0x64] = some ([0x00], 1) := by decide

/-- R72: a word store of four new cells in a store that holds three more is stuck; a byte store is not. -/
theorem test_store_stuck :
    stuck (withCapacity 3 (regsOf [(1, 0x64#32)])) 0x0030A023#32 = true ∧
      stuck (withCapacity 3 (regsOf [(1, 0x64#32)])) 0x00308023#32 = false := by decide

/-- R261, R263: `rst` empties memory, keeps the registers, and overrides `instr_valid`. -/
theorem test_reset_overrides :
    (match step { regsOf [(1, 0x64#32), (3, 0x01#32)] with
        mem := [(0x64, 0x07#8)], written := [0x64#32]
        host := [.cycle { rst := true, instrValid := true, instr := 0x0030A023#32 }] } with
      | .next t => t.mem == [] && t.written == [] && t.readReg 1 == 0x64#32
      | .fault _ => false
      | .refused _ => false) = true := by decide

/-- The hash of section 1: addresses 100, -100 and 1124 share bucket 100; `0x80000000` lives in bucket 0 (R71). -/
theorem test_buckets : bucketOf 1024 100#32 = 100 ∧ bucketOf 1024 0xFFFFFF9C#32 = 100 ∧ bucketOf 1024 1124#32 = 100 ∧
    bucketOf 1024 0x80000000#32 = 0 := by decide

/-! ### Text lines (section 4 of the test vectors) -/

theorem test_text_words :
    assembleWord ExtRType.none "add  x3 ,, x1   x2".toList = some 0x002081B3#32 ∧
    assembleWord ExtRType.none "lw x4 0 x1".toList = some 0x0000A203#32 ∧
    assembleWord ExtRType.none "sw x3, -4(x1)".toList = some 0xFE30AE23#32 ∧
    assembleWord ExtRType.none "lb x4, -1(x2)".toList = some 0xFFF10203#32 ∧
    assembleWord ExtRType.none "add x03, x01, x02".toList = some 0x002081B3#32 := by decide

theorem test_text_literals :
    assembleWord ExtRType.none "addi x5, x1, 0x1234".toList = some 0x23408293#32 ∧
    assembleWord ExtRType.none "addi x5, x1, -2049".toList = some 0x7FF08293#32 ∧
    assembleWord ExtRType.none "addi x5, x1, 0xFFFFFFFF".toList = some 0xFFF08293#32 ∧
    assembleWord ExtRType.none "lui x2, 0x123456".toList = some 0x23456137#32 := by decide

theorem test_text_refused_shape :
    assemble ExtRType.none "add x3, x1".toList = .malformed .operandCount ∧
    assemble ExtRType.none "add x3, x1, x2, x4".toList = .malformed .operandCount ∧
    assemble ExtRType.none "add".toList = .malformed .operandCount ∧
    assemble ExtRType.none "lw x4, (x1)".toList = .malformed .operandCount ∧
    assemble ExtRType.none "lui x2, 1, 2".toList = .malformed .operandCount ∧
    assemble ExtRType.none "add x3, x1, 5".toList = .malformed .registerSyntax ∧
    assemble ExtRType.none "add x3, x1, x123".toList = .malformed .registerSyntax ∧
    assemble ExtRType.none "add x3, x1, x32".toList = .malformed .registerIndex := by decide

theorem test_text_refused_literals :
    assemble ExtRType.none "addi x5, x1, x2".toList = .malformed .immediateSyntax ∧
    assemble ExtRType.none "addi x5, x1, 012".toList = .malformed .immediateSyntax ∧
    assemble ExtRType.none "addi x5, x1, 0x".toList = .malformed .immediateSyntax ∧
    assemble ExtRType.none "addi x5, x1, 4294967296".toList = .malformed .immediateRange := by decide

theorem test_text_unknown :
    assemble ExtRType.none "ADD x3, x1, x2".toList = .unknown ∧
    assemble ExtRType.none "srl x3, x1, x2".toList = .unknown ∧
    assemble ExtRType.none " add x3, x1, x2".toList = .unknown ∧
    assemble ExtRType.none "".toList = .unknown ∧
    assemble ExtRType.none "add\tx3, x1, x2".toList = .unknown := by decide

theorem test_text_printed :
    printInstr (.lb 4 2 0xFFFFFFFF#32) = "lb x4, -1(x2)".toList ∧
    printInstr (.addi 5 1 0x0000000A#32) = "addi x5, x1, 10".toList ∧
    printInstr (.lui 2 0x00001000#32) = "lui x2, 1".toList := by decide

/-! ### The host's entry points -/

theorem test_table_word : decodeTableWord 32 0x4020E1B3 = some (.nor 3 1 2) ∧ decodeTableWord 32 0x00000000 = none ∧
    decodeTableWord 7 0x00000037 = some (.lui 0 0#32) := by decide

theorem test_fetch_word :
    (match step (State.reset.withFetchWord 32 0x00001137) with
      | .next t => t.readReg 2
      | .fault _ => 0#32
      | .refused _ => 0#32) = 0x00001000#32 := by decide

/-! ### Witnesses: for every obligation with hypotheses, a state and operands that meet them -/

theorem witness_DecodeOfEncode :
    (Instr.addi 1 2 0xFFFFF800#32).wellFormed ExtRType.none = true ∧ (Instr.lw 1 2 0x000007FF#32).wellFormed ExtRType.none = true ∧
    (Instr.lui 1 0xFFFFF000#32).wellFormed ExtRType.none = true ∧ (Instr.nor 1 2 3).wellFormed ExtRType.all = true := by decide

theorem witness_EncodeOfDecode : decode ExtRType.none 0x80308023#32 = .instr (.sb 3 1 0xFFFFF800#32) := by decide

theorem witness_DecodeFollowsOpcodeTable :
    (∃ r ∈ opTable, r.hits 0x4020E1B3#32 ∧ r.op.enabled ExtRType.all = true) ∧
      ∀ r ∈ opTable, r.op.enabled ExtRType.none = true → ¬ r.hits 0x4020E1B3#32 := by
  unfold OpRow.hits; decide

theorem witness_OpcodeRowsDisjoint : ∃ r ∈ opTable, r.hits 0x002081B3#32 := by unfold OpRow.hits; decide

theorem witness_DecodedFieldsAreWordSlices :
    decode ExtRType.none 0x80008293#32 = .instr (.addi 5 1 0xFFFFF800#32) ∧
    decode ExtRType.none 0x7E30AFA3#32 = .instr (.sw 3 1 0x000007FF#32) ∧
    decode ExtRType.none 0xFFFFF137#32 = .instr (.lui 2 0xFFFFF000#32) ∧
    decode ExtRType.none 0x01FF8FB3#32 = .instr (.add 31 31 31) := by decide

theorem witness_AddRule : 0x002081B3#32 &&& 0xFE00707F#32 = 0x00000033#32 := by decide
theorem witness_SubRule : 0x402081B3#32 &&& 0xFE00707F#32 = 0x40000033#32 := by decide
theorem witness_AndRule : 0x0020F1B3#32 &&& 0xFE00707F#32 = 0x00007033#32 := by decide
theorem witness_OrRule : 0x0020E1B3#32 &&& 0xFE00707F#32 = 0x00006033#32 := by decide
theorem witness_XorRule : 0x0020C1B3#32 &&& 0xFE00707F#32 = 0x00004033#32 := by decide
theorem witness_SltRule : 0x0020A1B3#32 &&& 0xFE00707F#32 = 0x00002033#32 := by decide
theorem witness_SllRule : 0x002091B3#32 &&& 0xFE00707F#32 = 0x00001033#32 := by decide
theorem witness_SraRule : 0x4020D1B3#32 &&& 0xFE00707F#32 = 0x40005033#32 := by decide
theorem witness_NorRule : 0x4020E1B3#32 &&& 0xFE00707F#32 = 0x40006033#32 ∧ ExtRType.nor ⟨true, false⟩ = true ∧
    State.reset.cfg.ext.nor = false ∧ lineMnemonic "nor ((".toList = "nor".toList := by decide
theorem witness_SlaRule : 0x402091B3#32 &&& 0xFE00707F#32 = 0x40001033#32 ∧ ExtRType.sla ⟨false, true⟩ = true ∧
    State.reset.cfg.ext.sla = false ∧ lineMnemonic "sla".toList = "sla".toList := by decide
theorem witness_AddiRule : 0xFFF08293#32 &&& 0x0000707F#32 = 0x00000013#32 := by decide
theorem witness_AndiRule : 0xFFF0F293#32 &&& 0x0000707F#32 = 0x00007013#32 := by decide
theorem witness_OriRule : 0xFFF0E293#32 &&& 0x0000707F#32 = 0x00006013#32 := by decide
theorem witness_XoriRule : 0xFFF0C293#32 &&& 0x0000707F#32 = 0x00004013#32 := by decide
theorem witness_SltiRule : 0xFFF0A293#32 &&& 0x0000707F#32 = 0x00002013#32 := by decide
theorem witness_LwRule : 0xFFF0A203#32 &&& 0x0000707F#32 = 0x00002003#32 := by decide
theorem witness_LbRule : 0xFFF10203#32 &&& 0x0000707F#32 = 0x00000003#32 := by decide
theorem witness_LuiRule : 0xFFFFF137#32 &&& 0x0000007F#32 = 0x00000037#32 := by decide

/-- The invariant in the empty memory of any capacity. -/
theorem inv_fresh (c : Nat) : (withCapacity c State.reset).Inv :=
  ⟨rfl, Memory.wf_nil, List.nodup_nil, fun _ h => (nomatch h), fun _ _ => Nat.zero_le _⟩

/-- The invariant with cells stored and no capacity. -/
theorem inv_m1 : (withCells m1 (regsOf [(1, 0x64#32), (3, 0x01020304#32)])).Inv :=
  ⟨by decide, by decide, by decide, by decide, fun _ h => nomatch h⟩

/-- A store that fills the sparse store to the last entry. -/
theorem witness_SwRule : 0xFE30AE23#32 &&& 0x0000707F#32 = 0x00002023#32 ∧ (withCapacity 4 State.reset).Inv ∧
    StoreFits (withCapacity 4 State.reset) (State.reset.readReg 1 + 0xFFFFFFFE#32) 4 :=
  ⟨by decide, inv_fresh 4, fun c h => by cases h; decide⟩

theorem witness_SbRule : 0x80308023#32 &&& 0x0000707F#32 = 0x00000023#32 ∧ (withCapacity 1 State.reset).Inv ∧
    StoreFits (withCapacity 1 State.reset) (State.reset.readReg 1 + 0xFFFFFFFF#32) 1 :=
  ⟨by decide, inv_fresh 1, fun c h => by cases h; decide⟩

theorem witness_StepRunsPresentedInstruction :
    (State.reset.presenting 0x002081B3#32 []).host = .cycle { rst := false, instrValid := true, instr := 0x002081B3#32 } :: [] ∧
    decode State.reset.cfg.ext 0x002081B3#32 = .instr (.add 3 1 2) ∧
    (State.reset.presentingLine "lui x2, 1".toList []).host = .line "lui x2, 1".toList :: [] ∧
    assemble State.reset.cfg.ext "lui x2, 1".toList = .instr (.lui 2 0x00001000#32) ∧
    decodeTableWord 32 (0x4020E1B3#32 : Word).toNat = some (.nor 3 1 2) := by decide

theorem witness_UnknownChangesNothing :
    (∀ r ∈ opTable, r.op.enabled State.reset.cfg.ext = true → ¬ r.hits 0x402091B3#32) ∧
      ∀ o ∈ membershipSets, o.enabled State.reset.cfg.ext = true →
        Op.text o ≠ "nor ((,,".toList.takeWhile (fun c => c != ' ') := by
  unfold OpRow.hits; decide

theorem witness_StepIsTotalOnWords :
    State.reset.cfg.memCapacity = none ∧
    assemble State.reset.cfg.ext "add x3, x1".toList = .malformed .operandCount ∧
    (∀ e, assemble State.reset.cfg.ext "add x3, x1, x2".toList ≠ .malformed e) ∧
    step ((withCapacity 3 State.reset).presenting 0x0030A023#32 []) = .fault .storageExhausted ∧
    step (State.reset.presentingLine "add x3, x1".toList []) = .refused (.malformedLine .operandCount) :=
  ⟨rfl, by decide, fun e h => by cases e <;> revert h <;> decide, rfl, rfl⟩

theorem witness_OneDestinationPerInstruction :
    (∃ t, exec (.add 3 1 2) State.reset = .next t) ∧ (∃ t, exec (.add 0 1 2) State.reset = .next t) ∧
      ∃ t, exec (.sw 3 1 0#32) State.reset = .next t := ⟨⟨_, rfl⟩, ⟨_, rfl⟩, ⟨_, rfl⟩⟩

theorem witness_RegisterPortsTellTheWrite :
    (∃ t, exec (.add 3 1 2) (ab 5#32 7#32) = .next t) ∧ (rfPorts (.add 3 1 2) (ab 5#32 7#32)).we = true ∧
    (∃ t, exec (.add 0 1 2) (ab 5#32 7#32) = .next t) ∧ (rfPorts (.add 0 1 2) (ab 5#32 7#32)).we = false ∧
    (∃ t, exec (.sb 1 2 0#32) (ab 5#32 7#32) = .next t) ∧ (rfPorts (.sb 1 2 0#32) (ab 5#32 7#32)).we = false ∧
    (rfPorts (.sb 1 2 0#32) (ab 5#32 7#32)).raddrA = some 2 ∧ (rfPorts (.sb 1 2 0#32) (ab 5#32 7#32)).raddrB = some 1 ∧
    decode State.reset.cfg.ext 0x002081B3#32 = .instr (.add 3 1 2) ∧
    decode State.reset.cfg.ext 0x00000000#32 = .unknown .opcode ∧
    assemble State.reset.cfg.ext "add x3, x1, x2".toList = .instr (.add 3 1 2) ∧
    assemble State.reset.cfg.ext "nop".toList = .unknown ∧
    (∀ i v rest, (State.reset.presenting 0x002081B3#32 []).host ≠ .writeReg i v :: rest) ∧
    (∃ t, step (State.reset.presenting 0x002081B3#32 []) = .next t) ∧
    (stepPorts (State.reset.presenting 0x002081B3#32 [])).we = true ∧
    (∀ i v rest, (State.reset.presenting 0x00000000#32 []).host ≠ .writeReg i v :: rest) ∧
    (∃ t, step (State.reset.presenting 0x00000000#32 []) = .next t) ∧
    (stepPorts (State.reset.presenting 0x00000000#32 [])).we = false :=
  ⟨⟨_, rfl⟩, by decide, ⟨_, rfl⟩, by decide, ⟨_, rfl⟩, by decide, by decide, by decide, by decide, by decide, by decide,
    by decide, fun _ _ _ h => (nomatch h), ⟨_, rfl⟩, by decide, fun _ _ _ h => (nomatch h), ⟨_, rfl⟩, by decide⟩

/-- R27 on `add x1, x1, x2` (a source that is also the destination: the data of before the write), on `sb`, on a write to
register 0, and on an Unknown word. -/
theorem test_ports :
    stepPorts ((ab 5#32 7#32).presenting 0x002080B3#32 []) =
      { raddrA := some 1, rdataA := some 5#32, raddrB := some 2, rdataB := some 7#32
        we := true, waddr := some 1, wdata := some 12#32 } ∧
    stepPorts ((ab 5#32 7#32).presenting 0x00110023#32 []) =
      { raddrA := some 2, rdataA := some 7#32, raddrB := some 1, rdataB := some 5#32
        we := false, waddr := none, wdata := none } ∧
    stepPorts ((ab 5#32 7#32).presenting 0x00208033#32 []) =
      { raddrA := some 1, rdataA := some 5#32, raddrB := some 2, rdataB := some 7#32
        we := false, waddr := none, wdata := none } ∧
    stepPorts ((ab 5#32 7#32).presenting 0x001152B3#32 []) = RfPorts.idle := by decide

theorem witness_OnlyNamedRegistersAreRead :
    (ab 5#32 7#32).mem = (regsOf [(1, 5#32), (2, 7#32), (9, 1#32)]).mem ∧
    (∀ r, (Instr.add 3 1 2).rs1? = some r ∨ (Instr.add 3 1 2).rs2? = some r →
      (ab 5#32 7#32).readReg r = (regsOf [(1, 5#32), (2, 7#32), (9, 1#32)]).readReg r) ∧
    (∃ t, exec (.add 3 1 2) (ab 5#32 7#32) = .next t) ∧
    ∃ t, exec (.add 3 1 2) (regsOf [(1, 5#32), (2, 7#32), (9, 1#32)]) = .next t := by
  refine ⟨by decide, ?_, ⟨_, rfl⟩, ⟨_, rfl⟩⟩
  rintro r (h | h) <;> cases h <;> decide

theorem witness_ParametersNeverChange : ∃ t, step (State.reset.presenting 0x0030A023#32 []) = .next t := ⟨_, rfl⟩

theorem witness_IdleCycleChangesNothing :
    State.reset.host = [] ∧
    ({ State.reset with host := [.cycle { rst := false, instrValid := false, instr := 0x002081B3#32 }] } : State).host =
      .cycle { rst := false, instrValid := false, instr := 0x002081B3#32 } :: [] := ⟨rfl, rfl⟩

theorem witness_HostWritesOneRegister :
    ({ State.reset with host := [.writeReg 0 7#32, .writeReg 31 7#32] } : State).host =
      .writeReg 0 7#32 :: [.writeReg 31 7#32] := rfl

theorem witness_ResetValues : (1#5 : RegIdx) ≠ 0#5 ∧ (31#5 : RegIdx) ≠ 0#5 := by decide

theorem witness_ResetSignalEmptiesMemory :
    ({ withCells m1 State.reset with host := [.cycle { rst := true, instrValid := true, instr := 0x002081B3#32 }] } : State).host =
      .cycle { rst := true, instrValid := true, instr := 0x002081B3#32 } :: [] := rfl

theorem witness_InvariantKeptByEveryStep :
    (withCells m1 (regsOf [(1, 0x64#32), (3, 0x01020304#32)])).Inv ∧
      ∃ t, step (withCells m1 (regsOf [(1, 0x64#32), (3, 0x01020304#32)])) = .next t := ⟨inv_m1, _, rfl⟩

theorem witness_NeverStoredReadsZero :
    (withCells m1 (regsOf [(1, 0x64#32), (3, 0x01020304#32)])).Inv ∧
      0x68#32 ∉ (withCells m1 (regsOf [(1, 0x64#32), (3, 0x01020304#32)])).written := ⟨inv_m1, by decide⟩

theorem witness_WrittenSetNeverShrinks :
    (∃ t, step ((withCells m1 State.reset).presenting 0x0030A023#32 []) = .next t) ∧
    (∀ p rest, ((withCells m1 State.reset).presenting 0x0030A023#32 []).host = .cycle p :: rest → p.rst = false) ∧
    0x64#32 ∈ ((withCells m1 State.reset).presenting 0x0030A023#32 []).written :=
  ⟨⟨_, rfl⟩, fun p rest h => by cases h; rfl, by decide⟩

theorem witness_StoreThenLoadLaws :
    (withCells m1 (regsOf [(1, 0x64#32), (3, 0x01020304#32)])).Inv ∧
    (∀ k < Width.bytes .word, 0x68#32 ≠ 0x64#32 + BitVec.ofNat 32 k) ∧
    (∀ k < Width.bytes .byte, 0x65#32 ≠ 0x64#32 + BitVec.ofNat 32 k) ∧
    (∃ t, exec (.lw 4 1 0#32) State.reset = .next t) ∧ ∃ t, exec (.lb 4 1 0#32) State.reset = .next t :=
  ⟨inv_m1, by decide, by decide, ⟨_, rfl⟩, ⟨_, rfl⟩⟩

theorem witness_StoreTwiceIsStoreOnce : (withCells m1 (regsOf [(1, 0x64#32), (3, 0x01020304#32)])).Inv := inv_m1

theorem witness_StoreVisibleToNextStep :
    (withCells m1 (regsOf [(1, 0x64#32), (3, 0x01020304#32)])).Inv ∧
    (withCells m1 (regsOf [(1, 0x64#32), (3, 0x01020304#32)])).cfg.memCapacity = none ∧ (1#5 : RegIdx) ≠ 0#5 ∧
    immFits12 0x000007FF#32 = true ∧ immFits12 0xFFFFF800#32 = true := ⟨inv_m1, rfl, by decide, by decide, by decide⟩

theorem witness_StoreStuckExactlyWhenFull :
    State.reset.cfg.memCapacity = none ∧ (withCapacity 4 State.reset).cfg.memCapacity = some 4 ∧
    ¬ 4 < (withCapacity 4 State.reset).written.length + newEntries (withCapacity 4 State.reset) 0xFFFFFFFE#32 4 ∧
    3 < (withCapacity 3 State.reset).written.length + newEntries (withCapacity 3 State.reset) 0xFFFFFFFE#32 4 ∧
    0 < (withCapacity 0 State.reset).written.length + newEntries (withCapacity 0 State.reset) 0xFFFFFFFF#32 1 := by decide

theorem witness_MemoriesReadingAlikeAreEqual :
    Memory.wf [(0, 1#8), (2 ^ 32 - 1, 255#8)] ∧
      ∀ a < 2 ^ 32, Memory.read [(0, 1#8), (2 ^ 32 - 1, 255#8)] a = Memory.read [(0, 1#8), (2 ^ 32 - 1, 255#8)] a :=
  ⟨by decide, fun _ _ => rfl⟩

theorem witness_MachineStepsSparseStoreByPut :
    (withCells m1 (regsOf [(1, 0x64#32), (3, 0x01020304#32)])).Inv ∧
    (∃ t, exec (.sb 3 1 0#32) (withCells m1 (regsOf [(1, 0x64#32), (3, 0x01020304#32)])) = .next t) ∧
    (∃ t, exec (.sw 3 1 2#32) (withCells m1 (regsOf [(1, 0x64#32), (3, 0x01020304#32)])) = .next t) ∧
    (Instr.lui 1 0#32).rd? ≠ none ∧ ∃ t, exec (.lui 1 0#32) State.reset = .next t :=
  ⟨inv_m1, ⟨_, rfl⟩, ⟨_, rfl⟩, by decide, ⟨_, rfl⟩⟩

theorem witness_SparseStoreHoldsTheCells :
    (withCells m1 (regsOf [(1, 0x64#32), (3, 0x01020304#32)])).Inv ∧
      ∃ c, (withCells m1 (regsOf [(1, 0x64#32), (3, 0x01020304#32)])).sparseStore.buckets[0x64]? = some c ∧
        c.nodes = [(0x64#32, 0x04#8)] := by
  refine ⟨inv_m1, (withCells m1 (regsOf [(1, 0x64#32), (3, 0x01020304#32)])).bucket 0x64, ?_, by decide⟩
  simp only [State.sparseStore, List.getElem?_map]
  rw [List.getElem?_range (by decide)]
  rfl

theorem witness_SequenceContainerLaws :
    (SeqContainer.mk [(1#32, 5#8), (2#32, 0#8)] 2).size = (SeqContainer.mk [(1#32, 5#8), (2#32, 0#8)] 2).nodes.length ∧
    ([(1#32, 5#8), (2#32, 0#8)].map Prod.fst).Nodup ∧ 2#32 ∈ [(1#32, 5#8), (2#32, 0#8)].map Prod.fst ∧
    3#32 ∉ [(1#32, 5#8), (2#32, 0#8)].map Prod.fst := by decide

theorem witness_LuiAddiBuildAnyConstant :
    (31#5 : RegIdx) ≠ 0#5 ∧ (0xFFFFF800#32).getLsbD 11 = true ∧ (0x000007FF#32).getLsbD 11 = false := by decide

theorem witness_AssembleOfPrint :
    (Instr.addi 31 0 0xFFFFF800#32).wellFormed ExtRType.none = true ∧ (Instr.sla 1 2 3).wellFormed ExtRType.all = true ∧
    (Instr.sb 1 2 0x000007FF#32).wellFormed ExtRType.none = true ∧ (Instr.lui 1 0xFFFFF000#32).wellFormed ExtRType.none = true := by
  decide

theorem witness_LineStepsLikeItsWord :
    assembleWord State.reset.cfg.ext "addi x5, x1, -1".toList = some 0xFFF08293#32 ∧
      assembleWord State.reset.cfg.ext "nop".toList = some 0x00000000#32 := by decide

theorem witness_OperandCountIsCheckedFirst :
    classify State.reset.cfg.ext (lineMnemonic "add q".toList) = some (.reg .add) ∧
    assemble State.reset.cfg.ext "add q".toList = .malformed .operandCount ∧
    classify State.reset.cfg.ext (lineMnemonic "lui x1, 1, 2".toList) = some .lui := by decide

theorem witness_RegisterTokens :
    10 * 3 + 1 < 32 ∧ 32 ≤ 10 * 3 + 2 ∧ ['x', digitChar 3, digitChar 2] = "x32".toList ∧
    (∀ n < 10, "x".toList ≠ ['x', digitChar n]) ∧ (∀ m < 10, ∀ n < 10, "x".toList ≠ ['x', digitChar m, digitChar n]) := by
  decide

end Sys2Proof.Tests
end

section
/-! PROOFS. A text line and the word the assembler emits for it (30_encoding.md R116, R117, R119): what the assembler
yields is well formed, so the decoder reads it back from its word. -/

namespace Sys2Proof

/-! ### The decoder on an encoded instruction, format by format -/

theorem decode_formatR (ext : ExtRType) (f7 : BitVec 7) (rs2 rs1 : RegIdx) (f3 : BitVec 3) (rd : RegIdx) :
    decode ext (formatR f7 rs2 rs1 f3 rd 0b0110011#7) = decodeR ext f7 f3 rd rs1 rs2 := by
  simp [decode]

theorem decode_formatI_imm (ext : ExtRType) {imm : Word} (h : immFits12 imm = true) (rs1 : RegIdx) (f3 : BitVec 3)
    (rd : RegIdx) : decode ext (formatI imm rs1 f3 rd 0b0010011#7) = decodeI f3 rd rs1 imm := by
  simp [decode, wordImmI_formatI h]

theorem decode_formatI_load (ext : ExtRType) {imm : Word} (h : immFits12 imm = true) (rs1 : RegIdx) (f3 : BitVec 3)
    (rd : RegIdx) : decode ext (formatI imm rs1 f3 rd 0b0000011#7) = decodeLoad f3 rd rs1 imm := by
  simp [decode, wordImmI_formatI h]

theorem decode_formatS (ext : ExtRType) {imm : Word} (h : immFits12 imm = true) (rs2 rs1 : RegIdx) (f3 : BitVec 3) :
    decode ext (formatS imm rs2 rs1 f3 0b0100011#7) = decodeStore f3 rs2 rs1 imm := by
  simp [decode, wordImmS_formatS h]

theorem decode_formatU (ext : ExtRType) {imm : Word} (h : immIsUpper imm = true) (rd : RegIdx) :
    decode ext (formatU imm rd 0b0110111#7) = .instr (.lui rd imm) := by
  simp [decode, wordImmU_formatU h]

/-- The decoder reads a well-formed instruction back from its word (R117): the format's fields select its row. -/
theorem decode_encode {ext : ExtRType} {i : Instr} (h : i.wellFormed ext = true) :
    decode ext (encode i) = .instr i := by
  cases i with
  | add | sub | and | or | xor | slt | sll | sra => simp [encode, decode_formatR, decodeR]
  | nor | sla =>
    simp only [Instr.wellFormed] at h
    simp [encode, decode_formatR, decodeR, h]
  | addi | andi | ori | xori | slti => simp [encode, decode_formatI_imm ext h, decodeI]
  | lw | lb => simp [encode, decode_formatI_load ext h, decodeLoad]
  | sw | sb => simp [encode, decode_formatS ext h, decodeStore]
  | lui => exact decode_formatU ext h _

/-- The canonical Unknown word is Unknown under every extension set (R106). -/
theorem decode_unknownWord (ext : ExtRType) : decode ext unknownWord = .unknown .opcode := rfl

namespace Machine

/-! ### What the assembler yields is well formed -/

theorem immFits12_literalImm12 (v : Int) : immFits12 (literalImm12 v) = true := immFits12_signExtend _

theorem immIsUpper_literalImm20 (v : Int) : immIsUpper (literalImm20 v) = true := by
  have h : (BitVec.ofInt 20 v ++ 0#12).extractLsb' 0 12 = 0#12 := BitVec.extractLsb'_append_eq_right
  rw [immIsUpper, literalImm20, h, beq_self_eq_true]

/-- A mnemonic is classified in an enabled set only (R111). -/
theorem classify_enabled {ext : ExtRType} {mnemonic : List Char} {o : Op} (h : classify ext mnemonic = some o) :
    o.enabled ext = true := by
  have hp := List.find?_some (by simpa only [classify] using h)
  exact (Bool.and_eq_true_iff.1 hp).1

theorem wellFormed_instr_reg (ext : ExtRType) (o : ROp) (rd rs1 rs2 : RegIdx) :
    (ROp.instr rd rs1 rs2 o).wellFormed ext = Op.enabled ext (.reg o) := by cases o <;> rfl

theorem wellFormed_instr_imm (ext : ExtRType) (o : IOp) (rd rs1 : RegIdx) (imm : Word) :
    (IOp.instr rd rs1 imm o).wellFormed ext = immFits12 imm := by cases o <;> rfl

theorem wellFormed_instr_load (ext : ExtRType) (o : LoadOp) (rd rs1 : RegIdx) (imm : Word) :
    (LoadOp.instr rd rs1 imm o).wellFormed ext = immFits12 imm := by cases o <;> rfl

theorem wellFormed_instr_store (ext : ExtRType) (o : StoreOp) (rs2 rs1 : RegIdx) (imm : Word) :
    (StoreOp.instr rs2 rs1 imm o).wellFormed ext = immFits12 imm := by cases o <;> rfl

/-- A bind of the assembler answers exactly where both of its parts do. -/
theorem bind_eq_ok_iff {α β : Type} {x : Except LineError α} {f : α → Except LineError β} {b : β} :
    x >>= f = .ok b ↔ ∃ a, x = .ok a ∧ f a = .ok b := by
  cases x with
  | ok a => exact ⟨fun h => ⟨a, rfl, h⟩, by rintro ⟨_, ⟨⟩, h⟩; exact h⟩
  | error e => exact ⟨by rintro ⟨⟩, by rintro ⟨_, ⟨⟩, _⟩⟩

/-- What the operands of an enabled mnemonic make is well formed: every immediate comes from a literal (R97, R116). -/
theorem parseOperands_wellFormed {ext : ExtRType} {o : Op} {ts : List (List Char)} {i : Instr}
    (ho : o.enabled ext = true) (h : parseOperands o ts = .ok i) : i.wellFormed ext = true := by
  unfold parseOperands at h
  split at h
  case h_1 | h_2 | h_3 | h_4 =>
    simp only [bind_eq_ok_iff] at h
    obtain ⟨_, -, _, -, _, -, ⟨⟩⟩ := h
    simp only [wellFormed_instr_reg, wellFormed_instr_imm, wellFormed_instr_load, wellFormed_instr_store,
      immFits12_literalImm12, ho]
  case h_5 =>
    simp only [bind_eq_ok_iff] at h
    obtain ⟨_, -, v, -, ⟨⟩⟩ := h
    exact immIsUpper_literalImm20 v
  all_goals cases h

/-- An assembled instruction is well formed in its extension set (R116, R117). -/
theorem assemble_wellFormed {ext : ExtRType} {text : List Char} {i : Instr} (h : assemble ext text = .instr i) :
    i.wellFormed ext = true := by
  unfold assemble at h
  split at h
  · cases h
  · rename_i o ho
    split at h
    · rename_i j hj
      cases h
      exact parseOperands_wellFormed (classify_enabled ho) hj
    · cases h

/-! ### The step on a line and on its word -/

/-- A line and the word the assembler emits for it ask the same of the block (R119, R141). -/
theorem fetchLine_eq_fetchWord {s : State} {text : List Char} {w : Word} (h : assembleWord s.cfg.ext text = some w) :
    fetchLine text s = fetchWord w s := by
  unfold assembleWord at h
  unfold fetchLine fetchWord
  cases ha : assemble s.cfg.ext text with
  | instr i =>
    obtain rfl : encode i = w := by simpa [ha] using h
    simp only [decode_encode (assemble_wellFormed ha)]
  | unknown =>
    obtain rfl : unknownWord = w := by simpa [ha] using h
    simp only [decode_unknownWord]
  | malformed e => simp [ha] at h

theorem fetch_presentingLine (s : State) (text : List Char) (rest : List HostMove) :
    fetch (s.presentingLine text rest) = fetchLine text { s with host := rest } := rfl

theorem fetch_presenting (s : State) (w : Word) (rest : List HostMove) :
    fetch (s.presenting w rest) = fetchWord w { s with host := rest } := rfl

end Machine

open Machine

/-- Settles O52: the line is fetched as its word is, since the decoder reads an assembled instruction back from its
word and finds `UNKNOWN_WORD` Unknown. -/
theorem lineStepsLikeItsWord : Obligations.LineStepsLikeItsWord := by
  intro s text rest w h
  have hfetch : fetchLine text { s with host := rest } = fetchWord w { s with host := rest } :=
    fetchLine_eq_fetchWord h
  rw [step, step, fetch_presentingLine, fetch_presenting, hfetch]

end Sys2Proof
end

section
/-! PROOFS. The state of 10_state.md: the invariant of every run (R22, R33, R34), what a step does to the parameters
(R30) and to `W`, the register-file ports (R24, R27), host writes (R25) and the values after reset (R26, R36). -/

namespace Sys2Proof.Machine

/-! ### A memory in canonical form is the list of its non-zero cells (log 6) -/

theorem Memory.mem_of_read_ne {m : Memory} {a : Nat} (h : m.read a ≠ Memory.unlisted) : (a, m.read a) ∈ m := by
  induction m with
  | nil => exact absurd rfl h
  | cons c m ih =>
    rw [Memory.read_cons] at h ⊢
    split at h
    next hac => simp [hac]
    next hac => simp [hac, ih h]

theorem Memory.read_of_mem {m : Memory} (hm : m.wf) {c : Host.Cell} (h : c ∈ m) : m.read c.1 = c.2 := by
  induction m with
  | nil => cases h
  | cons d m ih =>
    obtain ⟨hlt, -, -, hm'⟩ := Memory.wf_cons.1 hm
    rw [Memory.read_cons]
    rcases List.mem_cons.1 h with rfl | h
    · exact if_pos rfl
    · rw [if_neg (hlt c h).ne', ih hm' h]

theorem Memory.mem_iff_read {m : Memory} (hm : m.wf) {c : Host.Cell} :
    c ∈ m ↔ c.1 < 2 ^ 32 ∧ c.2 ≠ Memory.unlisted ∧ m.read c.1 = c.2 := by
  constructor
  · intro h
    obtain ⟨ha, hb⟩ := hm.2 c h
    exact ⟨ha, hb, Memory.read_of_mem hm h⟩
  · rintro ⟨-, hb, hr⟩
    have h := Memory.mem_of_read_ne (hr ▸ hb)
    rwa [hr] at h

/-- Memories that read alike have the same cells, and rising addresses leave one order for them. -/
theorem Memory.eq_of_read_eq {m m' : Memory} (hm : m.wf) (hm' : m'.wf)
    (h : ∀ a < 2 ^ 32, m.read a = m'.read a) : m = m' := by
  have hmem : ∀ c, c ∈ m ↔ c ∈ m' := fun c => by
    rw [Memory.mem_iff_read hm, Memory.mem_iff_read hm']
    exact and_congr_right fun ha => by rw [h c.1 ha]
  have hperm : m.Perm m' := (List.perm_ext_iff_of_nodup (hm.1.imp fun hlt e => hlt.ne (congrArg Prod.fst e))
    (hm'.1.imp fun hlt e => hlt.ne (congrArg Prod.fst e))).2 hmem
  exact hperm.eq_of_pairwise (fun _ _ _ _ hcd hdc => absurd hcd hdc.asymm) hm.1 hm'.1

/-! ### What every store keeps -/

/-- What every single cell write keeps, `MemWrite` keeps. -/
theorem State.memWrite_induction {P : State → Prop} (hcell : ∀ s a b, P s → P (s.storeCell a b)) {s : State} (hs : P s)
    (addr : Addr) (n : Width) (v : Word) : P (s.memWrite addr n v) := by
  cases n with
  | byte =>
    rw [State.memWrite_byte]
    exact hcell _ _ _ hs
  | word =>
    rw [State.memWrite_word]
    exact hcell _ _ _ (hcell _ _ _ (hcell _ _ _ (hcell _ _ _ hs)))

theorem State.memWrite_nodup {s : State} (hs : s.written.Nodup) (addr : Addr) (n : Width) (v : Word) :
    (s.memWrite addr n v).written.Nodup :=
  State.memWrite_induction (P := fun s => s.written.Nodup) (fun _ _ _ h => h.insert) hs addr n v

/-- Every listed cell has been stored to (R34): the cell part of the invariant. -/
def State.CellsStored (s : State) : Prop := ∀ c ∈ s.mem, BitVec.ofNat 32 c.1 ∈ s.written

theorem State.CellsStored.storeCell {s : State} (hs : s.CellsStored) (a : Addr) (b : Byte) :
    (s.storeCell a b).CellsStored := by
  intro c hc
  rw [State.mem_storeCell_written]
  rcases Memory.mem_write hc with rfl | hc
  · simp
  · exact .inr (hs c hc)

theorem State.CellsStored.memWrite {s : State} (hs : s.CellsStored) (addr : Addr) (n : Width) (v : Word) :
    (s.memWrite addr n v).CellsStored :=
  State.memWrite_induction (fun _ a b h => h.storeCell a b) hs addr n v

/-! ### The invariant, effect by effect -/

theorem State.writeReg_regs_zero (s : State) (i : RegIdx) (v : Word) : (s.writeReg i v).regs[0] = s.regs[0] := by
  unfold State.writeReg
  split
  · rfl
  next hi =>
    have hne : i.toNat ≠ 0 := fun e => hi (BitVec.eq_of_toNat_eq e)
    exact Vector.getElem_set_ne i.isLt (by decide) hne

theorem State.Inv.writeReg {s : State} (h : s.Inv) (i : RegIdx) (v : Word) : (s.writeReg i v).Inv where
  zero      := by rw [State.writeReg_regs_zero, h.zero]
  canonical := by simpa using h.canonical
  nodup     := by simpa using h.nodup
  stored    := by simpa using h.stored
  fits      := by simpa using h.fits

/-- A store keeps the invariant where `W` still fits the capacity, which `State.store` sees to (R72). -/
theorem State.Inv.memWrite {s : State} (h : s.Inv) (addr : Addr) (n : Width) (v : Word)
    (hfits : ∀ c, s.cfg.memCapacity = some c → (s.memWrite addr n v).written.length ≤ c) :
    (s.memWrite addr n v).Inv := by
  obtain ⟨hregs, hcfg, -⟩ := State.memWrite_frame s addr n v
  exact {
    zero      := by simpa only [hregs] using h.zero
    canonical := State.memWrite_wf h.canonical addr n v
    nodup     := State.memWrite_nodup h.nodup addr n v
    stored    := State.CellsStored.memWrite h.stored addr n v
    fits      := by rwa [hcfg] }

theorem State.Inv.applyReset {s : State} (h : s.Inv) : s.applyReset.Inv where
  zero      := h.zero
  canonical := Memory.wf_nil
  nodup     := List.nodup_nil
  stored    := List.forall_mem_nil _
  fits _ _  := Nat.zero_le _

/-- The invariant does not speak of what the host will do. -/
theorem State.Inv.withHost {s : State} (h : s.Inv) (rest : List HostMove) : State.Inv { s with host := rest } where
  zero      := h.zero
  canonical := h.canonical
  nodup     := h.nodup
  stored    := h.stored
  fits      := h.fits

theorem State.resetWith_inv (cfg : Config) (regInit : Vector Word 32) : (State.resetWith cfg regInit).Inv where
  zero      := Vector.getElem_set_self _
  canonical := Memory.wf_nil
  nodup     := List.nodup_nil
  stored    := List.forall_mem_nil _
  fits _ _  := Nat.zero_le _

theorem exec_keeps_inv {i : Instr} {s t : State} (hs : s.Inv) (h : exec i s = .next t) : t.Inv := by
  rcases exec_next h with ⟨rd, v, -, -, rfl⟩ | ⟨n, rs2, rs1, imm, -, rfl, hfits⟩
  · exact hs.writeReg rd v
  · exact hs.memWrite _ _ _ hfits

theorem step_keeps_inv {s t : State} (hs : s.Inv) (h : step s = .next t) : t.Inv := by
  rcases step_next h with ⟨-, rfl⟩ | ⟨m, rest, -, ⟨i, -, he⟩ | ⟨-, rfl | ⟨rfl, -⟩ | ⟨i, v, -, rfl⟩⟩⟩
  · exact hs
  · exact exec_keeps_inv (hs.withHost rest) he
  · exact hs.withHost rest
  · exact (hs.withHost rest).applyReset
  · exact (hs.withHost rest).writeReg i v

theorem State.Inv.memoryGet_of_not_mem {s : State} (h : s.Inv) {a : Addr} (ha : a ∉ s.written) :
    s.memoryGet a = Memory.unlisted := by
  by_contra hne
  have hstored := h.stored _ (Memory.mem_of_read_ne hne)
  exact ha (by simpa using hstored)

/-! ### Parameters and the written set, over a step -/

theorem step_cfg {s t : State} (h : step s = .next t) : t.cfg = s.cfg := by
  rcases step_next h with ⟨-, rfl⟩ | ⟨m, rest, -, ⟨i, -, he⟩ | ⟨-, rfl | ⟨rfl, -⟩ | ⟨i, v, -, rfl⟩⟩⟩
  · rfl
  · exact (exec_frame he).1
  · rfl
  · rfl
  · exact State.writeReg_cfg _ i v

theorem exec_written_subset {i : Instr} {s t : State} (h : exec i s = .next t) {a : Addr} (ha : a ∈ s.written) :
    a ∈ t.written := by
  rcases exec_next h with ⟨rd, v, -, -, rfl⟩ | ⟨n, rs2, rs1, imm, -, rfl, -⟩
  · rwa [State.writeReg_written]
  · exact (State.mem_memWrite_written s _ n _ a).2 (.inl ha)

/-! ### The ports -/

theorem State.rfRead_some {s : State} {raddr : Option RegIdx} {r : RegIdx} (h : raddr = some r) :
    s.rfRead raddr = some (s.readReg r) := by rw [h]; rfl

theorem rfWaddr?_of_rd {i : Instr} {rd : RegIdx} (h : i.rd? = some rd) (h0 : rd ≠ 0#5) : rfWaddr? i = some rd := by
  simp [rfWaddr?, h, h0]

/-- The ports do not speak of what the host will do. -/
theorem rfPorts_withHost (i : Instr) (s : State) (rest : List HostMove) :
    rfPorts i { s with host := rest } = rfPorts i s := rfl

/-- The register change from `s` to `t` is the one that the ports `p` say (R27): with `rf_we = 1` the register of the
write address holds the write data and no other changes; with `rf_we = 0` none changes. -/
def RfPorts.TellWrite (p : RfPorts) (s t : State) : Prop :=
  (p.we = true → ∃ rd v, p.waddr = some rd ∧ p.wdata = some v ∧
    t.readReg rd = v ∧ ∀ r, r ≠ rd → t.readReg r = s.readReg r) ∧
  (p.we = false → ∀ r, t.readReg r = s.readReg r)

theorem RfPorts.tellWrite_of_unchanged {p : RfPorts} (hp : p.we = false) {s t : State}
    (h : ∀ r, t.readReg r = s.readReg r) : p.TellWrite s t :=
  ⟨fun hwe => absurd hwe (by simp [hp]), fun _ => h⟩

theorem rfPorts_tellWrite {i : Instr} {s t : State} (h : exec i s = .next t) : (rfPorts i s).TellWrite s t := by
  rcases exec_next h with ⟨rd, v, hrd, hv, rfl⟩ | ⟨n, rs2, rs1, imm, hi, rfl, -⟩
  · by_cases h0 : rd = 0#5
    · subst h0
      refine RfPorts.tellWrite_of_unchanged ?_ fun _ => rfl
      simp [rfPorts, rfWaddr?, hrd]
    · have ha := rfWaddr?_of_rd hrd h0
      have hwe : (rfPorts i s).we = true := rfPorts_we.2 ⟨rd, hrd, h0⟩
      refine ⟨fun _ => ⟨rd, v, ha, ?_, State.readReg_writeReg_same s h0 v,
        fun r hr => State.readReg_writeReg_other s hr v⟩, fun hwe' => by simp [hwe] at hwe'⟩
      simp [rfPorts, ha, hv]
  · have hrd : i.rd? = none := by rcases hi with ⟨-, rfl⟩ | ⟨-, rfl⟩ <;> rfl
    refine RfPorts.tellWrite_of_unchanged ?_ (State.readReg_congr (State.memWrite_frame _ _ _ _).1)
    simp [rfPorts, rfWaddr?, hrd]

theorem fetchWord_instr {s : State} {w : Word} {i : Instr} (h : decode s.cfg.ext w = .instr i) :
    fetchWord w s = .run i s := by rw [fetchWord, h]

theorem fetchWord_unknown {s : State} {w : Word} {why : UnknownWhy} (h : decode s.cfg.ext w = .unknown why) :
    fetchWord w s = .settled s := by rw [fetchWord, h]

theorem fetchLine_instr {s : State} {text : List Char} {i : Instr} (h : assemble s.cfg.ext text = .instr i) :
    fetchLine text s = .run i s := by rw [fetchLine, h]

theorem fetchLine_unknown {s : State} {text : List Char} (h : assemble s.cfg.ext text = .unknown) :
    fetchLine text s = .settled s := by rw [fetchLine, h]

theorem stepPorts_tellWrite {s t : State} (hhost : ∀ i v rest, s.host ≠ .writeReg i v :: rest) (h : step s = .next t) :
    (stepPorts s).TellWrite s t := by
  rcases step_next h with ⟨hnil, rfl⟩ | ⟨m, rest, hm, ⟨i, hf, he⟩ | ⟨hf, ht⟩⟩
  · have hidle : stepPorts t = RfPorts.idle := by rw [stepPorts, fetch_nil hnil]
    rw [hidle]
    exact RfPorts.tellWrite_of_unchanged rfl fun _ => rfl
  · rw [stepPorts_run hm hf]
    exact rfPorts_tellWrite he
  · rw [stepPorts_settled hm hf]
    rcases ht with rfl | ⟨rfl, -⟩ | ⟨i, v, rfl, -⟩
    · exact RfPorts.tellWrite_of_unchanged rfl fun _ => rfl
    · exact RfPorts.tellWrite_of_unchanged rfl fun _ => rfl
    · exact absurd hm (hhost i v rest)

/-! ### What an instruction reads -/

/-- A result depends on the memory and on the registers that the instruction names as its sources (R24). -/
theorem State.result?_congr {i : Instr} {s s' : State} (hmem : s.mem = s'.mem)
    (h1 : ∀ r, i.rs1? = some r → s.readReg r = s'.readReg r) (h2 : ∀ r, i.rs2? = some r → s.readReg r = s'.readReg r) :
    s.result? i = s'.result? i := by
  cases i with
  | add _ rs1 rs2 | sub _ rs1 rs2 | and _ rs1 rs2 | or _ rs1 rs2 | xor _ rs1 rs2 | slt _ rs1 rs2 | sll _ rs1 rs2
  | sra _ rs1 rs2 | nor _ rs1 rs2 | sla _ rs1 rs2 =>
    simp only [State.result?, h1 rs1 rfl, h2 rs2 rfl]
  | addi _ rs1 _ | andi _ rs1 _ | ori _ rs1 _ | xori _ rs1 _ | slti _ rs1 _ => simp only [State.result?, h1 rs1 rfl]
  | lw _ rs1 _ | lb _ rs1 _ =>
    simp only [State.result?, State.effAddr, State.memRead4, State.memRead1, State.memoryGet_congr hmem, h1 rs1 rfl]
  | sw | sb | lui => rfl

theorem State.memWrite_mem_congr {s s' : State} (h : s.mem = s'.mem) (addr : Addr) (n : Width) (v : Word) :
    (s.memWrite addr n v).mem = (s'.memWrite addr n v).mem := by
  cases n <;> simp [State.memWrite_byte, State.memWrite_word, h]

theorem State.readReg_writeReg_congr {s s' : State} (rd : RegIdx) (v : Word) :
    (s.writeReg rd v).readReg rd = (s'.writeReg rd v).readReg rd := by
  by_cases h : rd = 0#5
  · subst h; rfl
  · rw [State.readReg_writeReg_same s h, State.readReg_writeReg_same s' h]

/-! ### After reset -/

theorem State.sparseStore_size_of_written_nil {s : State} (h : s.written = []) : s.sparseStore.size = 0 := by
  have hbucket : ∀ k, (s.bucket k).size = 0 := fun k => by simp [State.bucket, h]
  simp [SparseStore.size, State.sparseStore, Function.comp_def, hbucket]

end Sys2Proof.Machine

namespace Sys2Proof
open Machine

/-- Settles O39: each effect of a step (a register write, a store that fits, a reset, the consumed host move) keeps the
invariant. -/
theorem invariantKeptByEveryStep : Obligations.InvariantKeptByEveryStep :=
  fun _ _ hs h => step_keeps_inv hs h

/-- Settles O31: the write port is the commit of `exec_next`, and a step has the ports of what it fetches. -/
theorem registerPortsTellTheWrite : Obligations.RegisterPortsTellTheWrite := by
  refine ⟨fun i s => ⟨rfPorts_we, rfl, rfl, fun _ => State.rfRead_some, fun _ => State.rfRead_some⟩,
    fun i s t h => rfPorts_tellWrite h, fun s w rest => ⟨fun i h => ?_, fun why h => ?_⟩,
    fun s text rest => ⟨fun i h => ?_, fun h => ?_⟩, fun s t hhost h => stepPorts_tellWrite hhost h⟩
  · rw [stepPorts_run (s := s.presenting w rest) rfl (fetchWord_instr h)]
    exact rfPorts_withHost i s rest
  · exact stepPorts_settled (s := s.presenting w rest) rfl (fetchWord_unknown h)
  · rw [stepPorts_run (s := s.presentingLine text rest) rfl (fetchLine_instr h)]
    exact rfPorts_withHost i s rest
  · exact stepPorts_settled (s := s.presentingLine text rest) rfl (fetchLine_unknown h)

/-- Settles O32: the result, or the store's address and data, are made of the named sources and the memory alone. -/
theorem onlyNamedRegistersAreRead : Obligations.OnlyNamedRegistersAreRead := by
  intro i s s' t t' hmem hregs h h'
  cases hrd : i.rd? with
  | some rd =>
    obtain ⟨v, hv, he⟩ := exec_of_rd hrd s
    obtain ⟨v', hv', he'⟩ := exec_of_rd hrd s'
    have hres : s.result? i = s'.result? i :=
      State.result?_congr hmem (fun r hr => hregs r (.inl hr)) (fun r hr => hregs r (.inr hr))
    obtain rfl : v = v' := Option.some.inj (hv.symm.trans (hres.trans hv'))
    obtain rfl := Host.Outcome.next.inj (he.symm.trans h)
    obtain rfl := Host.Outcome.next.inj (he'.symm.trans h')
    refine ⟨by simpa using hmem, ?_⟩
    rintro _ ⟨⟩
    exact State.readReg_writeReg_congr rd v
  | none =>
    obtain ⟨n, rs2, rs1, imm, hrs2, hrs1, -, -, he⟩ := exec_of_no_rd hrd
    have haddr : s.effAddr rs1 imm = s'.effAddr rs1 imm := by rw [State.effAddr, State.effAddr, hregs rs1 (.inl hrs1)]
    obtain rfl := State.store_next ((he s).symm.trans h)
    obtain rfl := State.store_next ((he s').symm.trans h')
    rw [haddr, hregs rs2 (.inr hrs2)]
    exact ⟨State.memWrite_mem_congr hmem _ n _, fun _ hr => nomatch hr⟩

/-- Settles O33: no case of `step_next` touches the parameters. -/
theorem parametersNeverChange : Obligations.ParametersNeverChange := fun _ _ h => step_cfg h

/-- Settles O40: a cell that is not zero is listed, and so stored to; for the converse, `0x00` stored at address 0 after
reset. -/
theorem neverStoredReadsZero : Obligations.NeverStoredReadsZero := by
  refine ⟨fun s hs a ha => hs.memoryGet_of_not_mem ha, State.reset.memWrite 0#32 .byte 0#32, ?_, 0#32, ?_, ?_⟩
  · exact (State.resetWith_inv _ _).memWrite _ _ _ fun _ h => nomatch h
  · decide
  · decide

/-- Settles O41: an instruction only adds addresses, and the one host move that takes any away is a reset. -/
theorem writtenSetNeverShrinks : Obligations.WrittenSetNeverShrinks := by
  intro s t h hrst a ha
  rcases step_next h with ⟨-, rfl⟩ | ⟨m, rest, hm, ⟨i, -, he⟩ | ⟨-, rfl | ⟨-, p, rfl, hp⟩ | ⟨i, v, -, rfl⟩⟩⟩
  · exact ha
  · exact exec_written_subset he ha
  · exact ha
  · exact absurd hp (by simp [hrst p rest hm])
  · rwa [State.writeReg_written]

/-- Settles O46: both list their non-zero cells by rising address. -/
theorem memoriesReadingAlikeAreEqual : Obligations.MemoriesReadingAlikeAreEqual :=
  fun _ _ hm hm' h => Memory.eq_of_read_eq hm hm' h

/-- Settles O35: the step is the register write of the move. -/
theorem hostWritesOneRegister : Obligations.HostWritesOneRegister := by
  intro s i v rest h
  refine ⟨State.writeReg { s with host := rest } i v, ?_, State.writeReg_writesOnly _ i v⟩
  rw [step, fetch_cons h]
  rfl

/-- Settles O36: with `W` empty every bucket is. -/
theorem resetValues : Obligations.ResetValues := by
  intro cfg regInit
  refine ⟨rfl, fun i hi => ?_, fun a => rfl, fun a => List.not_mem_nil, State.sparseStore_size_of_written_nil rfl⟩
  have hne : 0 ≠ i.toNat := fun e => hi (BitVec.eq_of_toNat_eq e.symm)
  simp [State.readReg, hi, hne]

/-- Settles O38: entry 0 is set to zero, and the rest of the invariant is about an empty memory. -/
theorem invariantAfterReset : Obligations.InvariantAfterReset :=
  ⟨State.resetWith_inv, State.resetWith_inv _ _⟩

end Sys2Proof
end

section
/-! PROOFS. The access laws of 20_memory.md: a repeated store (R59), the capacity (R72), and a store seen by the next
step (R73). -/

namespace Sys2Proof.Machine

/-! ### A store of what is there already -/

theorem Memory.write_read_self {m : Memory} (hm : m.wf) {a : Nat} (ha : a < 2 ^ 32) : m.write a (m.read a) = m := by
  refine Memory.eq_of_read_eq (Memory.write_wf _ ha hm) hm fun x _ => ?_
  by_cases hx : x = a
  · subst hx
    exact Memory.read_write_same hm _ _
  · exact Memory.read_write_other _ hx

theorem State.storeCell_eq_self {s : State} (hm : s.mem.wf) {a : Addr} {b : Byte} (ha : a ∈ s.written)
    (hb : s.memoryGet a = b) : s.storeCell a b = s := by
  subst hb
  have hmem : s.mem.write a.toNat (s.memoryGet a) = s.mem := Memory.write_read_self hm a.isLt
  have hwritten : s.written.insert a = s.written := List.insert_of_mem ha
  simp only [State.storeCell, hmem, hwritten]

/-- `MemWrite` of bytes that the cells hold already, all of them in `W`, changes nothing: none of its cell writes does. -/
theorem State.memWrite_eq_self {s : State} (hm : s.mem.wf) {addr : Addr} {n : Width} {v : Word}
    (h : ∀ k < n.bytes, addr + BitVec.ofNat 32 k ∈ s.written ∧
      s.memoryGet (addr + BitVec.ofNat 32 k) = (v >>> (8 * k)).setWidth 8) : s.memWrite addr n v = s := by
  refine List.foldlRecOn (motive := (· = s)) (List.range n.bytes) _ rfl ?_
  rintro _ rfl k hk
  obtain ⟨ha, hb⟩ := h k (List.mem_range.1 hk)
  exact State.storeCell_eq_self hm ha (hb.trans (extract_byte v (8 * k)).symm)

theorem State.memWrite_memWrite {s : State} (hm : s.mem.wf) (addr : Addr) (n : Width) (v : Word) :
    (s.memWrite addr n v).memWrite addr n v = s.memWrite addr n v :=
  State.memWrite_eq_self (State.memWrite_wf hm addr n v) fun k hk =>
    ⟨(State.mem_memWrite_written s addr n v _).2 (.inr ⟨k, hk, rfl⟩), State.memWrite_stored hm addr n v k hk⟩

/-! ### A store under a capacity (R72) -/

theorem State.store_of_unbounded {s : State} (h : s.cfg.memCapacity = none) (addr : Addr) (n : Width) (v : Word) :
    s.store addr n v = .next (s.memWrite addr n v) := by
  rcases State.store_cases s addr n v with ⟨hnext, -⟩ | ⟨-, c, hc, -⟩
  · exact hnext
  · rw [h] at hc
    cases hc

theorem State.store_fault_iff {s : State} {c : Nat} (h : s.cfg.memCapacity = some c) (addr : Addr) (n : Width)
    (v : Word) :
    s.store addr n v = .fault .storageExhausted ↔ c < s.written.length + newEntries s addr n.bytes := by
  rw [← State.memWrite_length s addr n v]
  rcases State.store_cases s addr n v with ⟨hnext, hle⟩ | ⟨hfault, c', hc', hlt⟩
  · simp [hnext, hle c h]
  · obtain rfl : c = c' := Option.some.inj (h.symm.trans hc')
    simp [hfault, hlt]

/-! ### A load of what was stored -/

theorem State.memRead1_memWrite {s : State} (hm : s.mem.wf) (addr : Addr) (v : Word) :
    (s.memWrite addr .byte v).memRead1 addr = v.setWidth 8 := by
  have hcell := State.memWrite_stored hm addr .byte v 0 (by decide)
  rwa [addr_add_zero] at hcell

/-- A word is its four bytes, the lowest at the right. -/
theorem append_bytes (v : Word) :
    v.extractLsb' 24 8 ++ v.extractLsb' 16 8 ++ v.extractLsb' 8 8 ++ v.extractLsb' 0 8 = v := by
  have hhigh : v.extractLsb' 24 8 ++ v.extractLsb' 16 8 = v.extractLsb' 16 16 :=
    BitVec.extractLsb'_append_extractLsb'_eq_extractLsb' (by decide)
  have hmid : v.extractLsb' 16 16 ++ v.extractLsb' 8 8 = v.extractLsb' 8 24 :=
    BitVec.extractLsb'_append_extractLsb'_eq_extractLsb' (by decide)
  have hall : v.extractLsb' 8 24 ++ v.extractLsb' 0 8 = v.extractLsb' 0 32 :=
    BitVec.extractLsb'_append_extractLsb'_eq_extractLsb' (by decide)
  rw [hhigh, hmid, hall, BitVec.extractLsb'_eq_self]

theorem State.memRead4_memWrite {s : State} (hm : s.mem.wf) (addr : Addr) (v : Word) :
    (s.memWrite addr .word v).memRead4 addr = v := by
  have hcell : ∀ k < 4, (s.memWrite addr .word v).memoryGet (addr + BitVec.ofNat 32 k) = v.extractLsb' (8 * k) 8 :=
    fun k hk => (State.memWrite_stored hm addr .word v k hk).trans (extract_byte v (8 * k)).symm
  have hcell0 := hcell 0 (by decide)
  rw [addr_add_zero] at hcell0
  rw [State.memRead4, hcell 3 (by decide), hcell 2 (by decide), hcell 1 (by decide), hcell0]
  exact append_bytes v

/-! ### Two steps of the machine -/

/-- A step on the word of a well-formed instruction runs the instruction (R117, R141). -/
theorem step_presenting_encode {s : State} {i : Instr} (hi : i.wellFormed s.cfg.ext = true) (rest : List HostMove) :
    step (s.presenting (encode i) rest) = exec i { s with host := rest } := by
  have hdec : decode ({ s with host := rest } : State).cfg.ext (encode i) = .instr i := decode_encode hi
  rw [step, fetch_presenting, fetchWord_instr hdec]

theorem run_two {s t u : State} (h : step s = .next t) (h' : step t = .next u) : core.run 2 s = .next u := by
  have hcore : core.step s = .next t := h
  have hcore' : core.step t = .next u := h'
  simp only [Host.Core.run, hcore, hcore']

/-- A store does not depend on what the host will do. -/
theorem State.memWrite_withHost (s : State) (host : List HostMove) (addr : Addr) (n : Width) (v : Word) :
    State.memWrite { s with host := host } addr n v = { s.memWrite addr n v with host := host } := by
  cases n with
  | byte => rw [State.memWrite_byte, State.memWrite_byte]; rfl
  | word => rw [State.memWrite_word, State.memWrite_word]; rfl

/-- Two presented instructions, the first of them a store of an unbounded memory: the second runs in the memory stored to. -/
theorem run_store_then {s u : State} {i j : Instr} {rest : List HostMove} {addr : Addr} {n : Width} {v : Word}
    (hi : i.wellFormed s.cfg.ext = true) (hj : j.wellFormed s.cfg.ext = true)
    (hcap : s.cfg.memCapacity = none)
    (hstore : ∀ host, exec i { s with host := host } = State.store { s with host := host } addr n v)
    (h : exec j (State.memWrite { s with host := rest } addr n v) = .next u) :
    core.run 2 (s.presenting (encode i) (presentWord (encode j) :: rest)) = .next u := by
  refine run_two (t := (s.memWrite addr n v).presenting (encode j) rest) ?_ ?_
  · rw [step_presenting_encode hi, hstore, State.store_of_unbounded (by exact hcap), State.memWrite_withHost]
    rfl
  · have hcfg : (s.memWrite addr n v).cfg = s.cfg := (State.memWrite_frame s addr n v).2.1
    rw [step_presenting_encode (hcfg.symm ▸ hj), ← State.memWrite_withHost, h]

theorem State.effAddr_memWrite (s : State) (addr : Addr) (n : Width) (v : Word) (rs1 : RegIdx) (imm : Word) :
    (s.memWrite addr n v).effAddr rs1 imm = s.effAddr rs1 imm :=
  congrArg (· + imm) (State.readReg_congr (State.memWrite_frame s addr n v).1 rs1)

theorem exec_lw_memWrite {s : State} (hm : s.mem.wf) (rd rs1 : RegIdx) (imm v : Word) :
    exec (.lw rd rs1 imm) (s.memWrite (s.effAddr rs1 imm) .word v) =
      .next ((s.memWrite (s.effAddr rs1 imm) .word v).writeReg rd v) := by
  rw [exec, execLw, State.effAddr_memWrite, State.memRead4_memWrite hm, State.commit]

theorem exec_lb_memWrite {s : State} (hm : s.mem.wf) (rd rs1 : RegIdx) (imm v : Word) :
    exec (.lb rd rs1 imm) (s.memWrite (s.effAddr rs1 imm) .byte v) =
      .next ((s.memWrite (s.effAddr rs1 imm) .byte v).writeReg rd ((v.setWidth 8).signExtend 32)) := by
  rw [exec, execLb, State.effAddr_memWrite, State.memRead1_memWrite hm, State.commit]

end Sys2Proof.Machine

namespace Sys2Proof
open Machine

/-- Settles O43: after the first store the cells hold the bytes and stand in `W`, so the second changes nothing. -/
theorem storeTwiceIsStoreOnce : Obligations.StoreTwiceIsStoreOnce :=
  fun _ hs addr n v => State.memWrite_memWrite hs.canonical addr n v

/-- Settles O44: the two words decode to the store and the load, and the load reads the bytes just stored. -/
theorem storeVisibleToNextStep : Obligations.StoreVisibleToNextStep := by
  intro s rd rs1 rs2 imm rest hs hcap hrd himm
  have hword := run_store_then (s := s) (i := .sw rs2 rs1 imm) (j := .lw rd rs1 imm)
    (addr := s.effAddr rs1 imm) (n := .word) (v := s.readReg rs2) himm himm hcap (fun _ => rfl)
    (exec_lw_memWrite (s := { s with host := rest }) hs.canonical rd rs1 imm _)
  have hbyte := run_store_then (s := s) (i := .sb rs2 rs1 imm) (j := .lb rd rs1 imm)
    (addr := s.effAddr rs1 imm) (n := .byte) (v := s.readReg rs2) himm himm hcap (fun _ => rfl)
    (exec_lb_memWrite (s := { s with host := rest }) hs.canonical rd rs1 imm _)
  exact ⟨⟨_, hword, State.readReg_writeReg_same _ hrd _⟩, ⟨_, hbyte, State.readReg_writeReg_same _ hrd _⟩⟩

/-- Settles O45: the length of `W` after the store is compared with the capacity, and it is the old one and the new
entries. -/
theorem storeStuckExactlyWhenFull : Obligations.StoreStuckExactlyWhenFull :=
  ⟨rfl, fun _ _ _ _ hcap => ⟨⟨_, State.store_of_unbounded hcap _ .word _⟩, ⟨_, State.store_of_unbounded hcap _ .byte _⟩⟩,
    fun _ _ _ _ _ hcap => ⟨State.store_fault_iff hcap _ .word _, State.store_fault_iff hcap _ .byte _⟩⟩

end Sys2Proof
end

section
/-! PROOFS. The sparse store of 20_memory.md section 2: `insert_or_update` on one bucket (R66 to R68), and the store
computed from a state (R64 to R71): what it holds, and that the machine steps it by `put` (log 12). -/

namespace Sys2Proof.Machine

/-! ### A bucket's `get` and `overwrite`, node by node -/

/-- `get` looks at the nodes from the head on, and never at the size. -/
theorem SeqContainer.get_cons (n : Addr × Byte) (t : List (Addr × Byte)) (i j : Nat) (k : Addr) :
    (SeqContainer.mk (n :: t) i).get k = if n.1 = k then n.2 else (SeqContainer.mk t j).get k := by
  by_cases h : n.1 = k <;> simp [SeqContainer.get, h]

theorem SeqContainer.get_of_not_mem {c : SeqContainer} {k : Addr} (h : k ∉ c.nodes.map Prod.fst) :
    c.get k = 0x00#8 := by
  obtain ⟨nodes, size⟩ := c
  induction nodes with
  | nil => rfl
  | cons n t ih =>
    obtain ⟨hn, ht⟩ := not_or.1 (mt List.mem_cons.2 h)
    rw [SeqContainer.get_cons n t size size, if_neg (Ne.symm hn), ih ht]

theorem SeqContainer.overwrite_cons (k : Addr) (v : Byte) (n : Addr × Byte) (t : List (Addr × Byte)) :
    SeqContainer.overwrite k v (n :: t) = if n.1 = k then (k, v) :: t else n :: SeqContainer.overwrite k v t := rfl

theorem SeqContainer.overwrite_keys (k : Addr) (v : Byte) (l : List (Addr × Byte)) :
    (SeqContainer.overwrite k v l).map Prod.fst = l.map Prod.fst := by
  induction l with
  | nil => rfl
  | cons n t ih =>
    rw [SeqContainer.overwrite_cons]
    split
    next h => simp [h]
    next => simp [ih]

theorem SeqContainer.overwrite_length (k : Addr) (v : Byte) (l : List (Addr × Byte)) :
    (SeqContainer.overwrite k v l).length = l.length := by
  simpa using congrArg List.length (SeqContainer.overwrite_keys k v l)

theorem SeqContainer.overwrite_overwrite (k : Addr) (v : Byte) (l : List (Addr × Byte)) :
    SeqContainer.overwrite k v (SeqContainer.overwrite k v l) = SeqContainer.overwrite k v l := by
  induction l with
  | nil => rfl
  | cons n t ih =>
    rw [SeqContainer.overwrite_cons]
    split
    next => rw [SeqContainer.overwrite_cons, if_pos rfl]
    next h => rw [SeqContainer.overwrite_cons, if_neg h, ih]

theorem SeqContainer.get_overwrite {k : Addr} {l : List (Addr × Byte)} (h : k ∈ l.map Prod.fst) (v : Byte) (i : Nat)
    (k' : Addr) : (SeqContainer.mk (SeqContainer.overwrite k v l) i).get k' =
      if k' = k then v else (SeqContainer.mk l i).get k' := by
  induction l with
  | nil => cases h
  | cons n t ih =>
    rw [SeqContainer.overwrite_cons, SeqContainer.get_cons n t i i]
    by_cases hn : n.1 = k
    · rw [if_pos hn, SeqContainer.get_cons _ t i i, hn]
      by_cases hk : k' = k
      · simp [hk]
      · simp [hk, Ne.symm hk]
    · have ht : k ∈ t.map Prod.fst := (List.mem_cons.1 h).resolve_left (Ne.symm hn)
      rw [if_neg hn, SeqContainer.get_cons _ _ i i, ih ht]
      by_cases hk : k' = k
      · simp [hk, hn]
      · simp [hk]

/-! ### `insert_or_update` -/

theorem SeqContainer.insertOrUpdate_of_mem {c : SeqContainer} {k : Addr} (h : k ∈ c.nodes.map Prod.fst) (v : Byte) :
    c.insertOrUpdate k v = { c with nodes := SeqContainer.overwrite k v c.nodes } := by
  have hany : c.nodes.any (fun n => n.1 == k) = true := by simpa using h
  rw [SeqContainer.insertOrUpdate, if_pos hany]

theorem SeqContainer.insertOrUpdate_of_not_mem {c : SeqContainer} {k : Addr} (h : k ∉ c.nodes.map Prod.fst)
    (v : Byte) : c.insertOrUpdate k v = { nodes := (k, v) :: c.nodes, size := c.size + 1 } := by
  have hany : ¬ c.nodes.any (fun n => n.1 == k) = true := by simpa using h
  rw [SeqContainer.insertOrUpdate, if_neg hany]

theorem SeqContainer.get_insertOrUpdate (c : SeqContainer) (k : Addr) (v : Byte) (k' : Addr) :
    (c.insertOrUpdate k v).get k' = if k' = k then v else c.get k' := by
  by_cases h : k ∈ c.nodes.map Prod.fst
  · rw [SeqContainer.insertOrUpdate_of_mem h, SeqContainer.get_overwrite h]
  · rw [SeqContainer.insertOrUpdate_of_not_mem h, SeqContainer.get_cons _ _ _ c.size]
    exact if_congr eq_comm rfl rfl

/-- The keys after `insert_or_update`: in the same order, a new one at the head (R66). -/
theorem SeqContainer.insertOrUpdate_keys (c : SeqContainer) (k : Addr) (v : Byte) :
    (c.insertOrUpdate k v).nodes.map Prod.fst = (c.nodes.map Prod.fst).insert k := by
  by_cases h : k ∈ c.nodes.map Prod.fst
  · rw [SeqContainer.insertOrUpdate_of_mem h, List.insert_of_mem h]
    exact SeqContainer.overwrite_keys k v c.nodes
  · rw [SeqContainer.insertOrUpdate_of_not_mem h, List.insert_of_not_mem h, List.map_cons]

theorem SeqContainer.insertOrUpdate_size {c : SeqContainer} (hc : c.size = c.nodes.length) (k : Addr) (v : Byte) :
    (c.insertOrUpdate k v).size = (c.insertOrUpdate k v).nodes.length := by
  by_cases h : k ∈ c.nodes.map Prod.fst
  · rw [SeqContainer.insertOrUpdate_of_mem h]
    exact hc.trans (SeqContainer.overwrite_length k v c.nodes).symm
  · rw [SeqContainer.insertOrUpdate_of_not_mem h, List.length_cons, hc]

theorem SeqContainer.insertOrUpdate_twice (c : SeqContainer) (k : Addr) (v : Byte) :
    (c.insertOrUpdate k v).insertOrUpdate k v = c.insertOrUpdate k v := by
  have hmem : k ∈ (c.insertOrUpdate k v).nodes.map Prod.fst := by simp [SeqContainer.insertOrUpdate_keys]
  rw [SeqContainer.insertOrUpdate_of_mem hmem]
  by_cases h : k ∈ c.nodes.map Prod.fst
  · simp only [SeqContainer.insertOrUpdate_of_mem h, SeqContainer.overwrite_overwrite]
  · simp only [SeqContainer.insertOrUpdate_of_not_mem h, SeqContainer.overwrite_cons, if_true]

/-! ### A bucket that lists some cells of a memory -/

/-- The bucket with these keys, in this order, each with its cell. -/
def SeqContainer.ofCells (keys : List Addr) (cell : Addr → Byte) : SeqContainer :=
  { nodes := keys.map (fun a => (a, cell a)), size := keys.length }

theorem State.bucket_eq_ofCells (s : State) (k : Nat) :
    s.bucket k = SeqContainer.ofCells (s.written.filter (fun a => bucketOf s.cfg.bucketCount a == k)) s.memoryGet := rfl

theorem SeqContainer.ofCells_keys (keys : List Addr) (cell : Addr → Byte) :
    (SeqContainer.ofCells keys cell).nodes.map Prod.fst = keys := by
  simp [SeqContainer.ofCells, Function.comp_def]

theorem SeqContainer.ofCells_congr {keys : List Addr} {cell cell' : Addr → Byte} (h : ∀ a ∈ keys, cell a = cell' a) :
    SeqContainer.ofCells keys cell = SeqContainer.ofCells keys cell' := by
  have hnodes : keys.map (fun a => (a, cell a)) = keys.map (fun a => (a, cell' a)) :=
    List.map_congr_left fun a ha => by rw [h a ha]
  rw [SeqContainer.ofCells, SeqContainer.ofCells, hnodes]

/-- A cell that is no key of a bucket may change unseen by it. -/
theorem SeqContainer.ofCells_update_of_not_mem {keys : List Addr} {a : Addr} (h : a ∉ keys) (cell : Addr → Byte)
    (b : Byte) : SeqContainer.ofCells keys (Function.update cell a b) = SeqContainer.ofCells keys cell :=
  SeqContainer.ofCells_congr fun _ hx => Function.update_of_ne (ne_of_mem_of_not_mem hx h) b cell

theorem SeqContainer.get_ofCells (keys : List Addr) (cell : Addr → Byte) (a : Addr) :
    (SeqContainer.ofCells keys cell).get a = if a ∈ keys then cell a else 0x00#8 := by
  induction keys with
  | nil => rfl
  | cons x t ih =>
    have hcons : (SeqContainer.ofCells (x :: t) cell).get a =
        if x = a then cell x else (SeqContainer.ofCells t cell).get a := SeqContainer.get_cons _ _ _ _ a
    rw [hcons, ih]
    by_cases h : x = a
    · simp [h]
    · simp [h, Ne.symm h]

theorem SeqContainer.overwrite_cells {keys : List Addr} (hkeys : keys.Nodup) (cell : Addr → Byte) (a : Addr)
    (b : Byte) : SeqContainer.overwrite a b (keys.map fun x => (x, cell x)) =
      keys.map fun x => (x, Function.update cell a b x) := by
  induction keys with
  | nil => rfl
  | cons x t ih =>
    obtain ⟨hx, ht⟩ := List.nodup_cons.1 hkeys
    rw [List.map_cons, List.map_cons, SeqContainer.overwrite_cons]
    split
    next h =>
      subst h
      have htail := congrArg SeqContainer.nodes (SeqContainer.ofCells_update_of_not_mem hx cell b)
      rw [Function.update_self]
      exact congrArg _ htail.symm
    next h => rw [ih ht, Function.update_of_ne h]

/-- `insert_or_update` on the bucket of some cells gives the bucket of the cells after the write. -/
theorem SeqContainer.ofCells_insertOrUpdate {keys : List Addr} (hkeys : keys.Nodup) (cell : Addr → Byte) (a : Addr)
    (b : Byte) : (SeqContainer.ofCells keys cell).insertOrUpdate a b =
      SeqContainer.ofCells (keys.insert a) (Function.update cell a b) := by
  have hmem : a ∈ (SeqContainer.ofCells keys cell).nodes.map Prod.fst ↔ a ∈ keys := by
    rw [SeqContainer.ofCells_keys]
  by_cases h : a ∈ keys
  · rw [SeqContainer.insertOrUpdate_of_mem (hmem.2 h), List.insert_of_mem h]
    exact congrArg (SeqContainer.mk · keys.length) (SeqContainer.overwrite_cells hkeys cell a b)
  · rw [SeqContainer.insertOrUpdate_of_not_mem (mt hmem.1 h), List.insert_of_not_mem h,
      ← SeqContainer.ofCells_update_of_not_mem h cell b]
    simp [SeqContainer.ofCells]

/-! ### The buckets of a state -/

theorem State.bucketOf_lt (s : State) (a : Addr) : bucketOf s.cfg.bucketCount a < s.cfg.bucketCount :=
  Nat.mod_lt _ s.cfg.bucketCount.2

theorem State.sparseStore_length (s : State) : s.sparseStore.buckets.length = s.cfg.bucketCount := by
  simp [State.sparseStore]

theorem State.sparseStore_getElem? {s : State} {k : Nat} (h : k < s.cfg.bucketCount) :
    s.sparseStore.buckets[k]? = some (s.bucket k) := by
  simp [State.sparseStore, h]

theorem State.mem_bucket_keys {s : State} {k : Nat} {a : Addr} :
    a ∈ (s.bucket k).nodes.map Prod.fst ↔ a ∈ s.written ∧ bucketOf s.cfg.bucketCount a = k := by
  rw [State.bucket_eq_ofCells, SeqContainer.ofCells_keys]
  simp

theorem State.bucket_keys_nodup {s : State} (h : s.written.Nodup) (k : Nat) :
    ((s.bucket k).nodes.map Prod.fst).Nodup := by
  rw [State.bucket_eq_ofCells, SeqContainer.ofCells_keys]
  exact h.filter _

theorem State.bucket_size (s : State) (k : Nat) : (s.bucket k).size = (s.bucket k).nodes.length :=
  (List.length_map _).symm

/-- The bucket that an address hashes to answers with its cell (R65, R68): a cell outside `W` is zero. -/
theorem State.Inv.bucket_get {s : State} (h : s.Inv) (a : Addr) :
    (s.bucket (bucketOf s.cfg.bucketCount a)).get a = s.memoryGet a := by
  rw [State.bucket_eq_ofCells, SeqContainer.get_ofCells]
  by_cases ha : a ∈ s.written
  · simp [ha]
  · simp [ha, h.memoryGet_of_not_mem ha, Memory.unlisted]

theorem State.Inv.sparseStore_get {s : State} (h : s.Inv) (a : Addr) : s.sparseStore.get a = s.memoryGet a := by
  rw [SparseStore.get, State.sparseStore_length, State.sparseStore_getElem? (s.bucketOf_lt a)]
  exact h.bucket_get a

/-- Every address of `W` lives in one bucket, so the sizes add up to `|W|`. -/
theorem State.sparseStore_size {s : State} (h : s.written.Nodup) : s.sparseStore.size = s.written.length := by
  have hbucket : ∀ k, (s.bucket k).size =
      (s.written.toFinset.filter (fun a => bucketOf s.cfg.bucketCount a = k)).card := fun k => by
    rw [State.bucket_eq_ofCells, SeqContainer.ofCells, ← List.toFinset_card_of_nodup (h.filter _)]
    simp
  calc s.sparseStore.size
      = ((List.range s.cfg.bucketCount).map fun k => (s.bucket k).size).sum := by
        simp [SparseStore.size, State.sparseStore, Function.comp_def]
    _ = ∑ k ∈ Finset.range s.cfg.bucketCount, (s.bucket k).size := by
        rw [← List.toFinset_range, List.sum_toFinset _ List.nodup_range]
    _ = s.written.toFinset.card := by
        rw [Finset.card_eq_sum_card_fiberwise fun a _ => Finset.mem_coe.2 (Finset.mem_range.2 (s.bucketOf_lt a))]
        exact Finset.sum_congr rfl fun k _ => hbucket k
    _ = s.written.length := List.toFinset_card_of_nodup h

theorem State.sparseStore_of_written_nil {s : State} (h : s.written = []) :
    s.sparseStore = SparseStore.init s.cfg.bucketCount := by
  have hbucket : s.bucket = fun _ => SeqContainer.empty := by
    funext k
    simp [State.bucket, SeqContainer.empty, h]
  simp [State.sparseStore, SparseStore.init, hbucket]

theorem State.sparseStore_writeReg (s : State) (i : RegIdx) (v : Word) :
    (s.writeReg i v).sparseStore = s.sparseStore := by
  unfold State.writeReg
  split <;> rfl

/-! ### One cell write is one `put` -/

/-- The canonical forms that a cell write needs and keeps: of `M` (log 6) and of `W` (log 5). -/
structure State.CellsCanonical (s : State) : Prop where
  memory  : s.mem.wf
  written : s.written.Nodup

theorem State.CellsCanonical.storeCell {s : State} (h : s.CellsCanonical) (a : Addr) (b : Byte) :
    (s.storeCell a b).CellsCanonical where
  memory  := State.storeCell_wf h.memory a b
  written := h.written.insert

theorem State.Inv.cellsCanonical {s : State} (h : s.Inv) : s.CellsCanonical := ⟨h.canonical, h.nodup⟩

theorem State.memoryGet_storeCell {s : State} (hm : s.mem.wf) (a : Addr) (b : Byte) :
    (s.storeCell a b).memoryGet = Function.update s.memoryGet a b := by
  funext x
  by_cases hx : x = a
  · rw [hx, State.memoryGet_storeCell_same hm, Function.update_self]
  · rw [State.memoryGet_storeCell_other s hx, Function.update_of_ne hx]

theorem filter_insert {α : Type} [BEq α] [LawfulBEq α] (p : α → Bool) (l : List α) (a : α) :
    (l.insert a).filter p = if p a then (l.filter p).insert a else l.filter p := by
  by_cases ha : a ∈ l
  · by_cases hp : p a <;> simp [ha, hp]
  · by_cases hp : p a <;> simp [ha, hp]

theorem State.bucket_storeCell {s : State} (h : s.CellsCanonical) (a : Addr) (b : Byte) (k : Nat) :
    (s.storeCell a b).bucket k =
      if bucketOf s.cfg.bucketCount a = k then (s.bucket k).insertOrUpdate a b else s.bucket k := by
  rw [State.bucket_eq_ofCells, State.bucket_eq_ofCells, State.memoryGet_storeCell h.memory, State.storeCell_written,
    State.storeCell_cfg, filter_insert]
  by_cases hk : bucketOf s.cfg.bucketCount a = k
  · rw [if_pos hk, if_pos (beq_iff_eq.2 hk), SeqContainer.ofCells_insertOrUpdate (h.written.filter _)]
  · rw [if_neg hk, if_neg (mt beq_iff_eq.1 hk), SeqContainer.ofCells_update_of_not_mem]
    simp [hk]

/-- The cell write of the machine is the `put` of the document (R69). -/
theorem State.sparseStore_storeCell {s : State} (h : s.CellsCanonical) (a : Addr) (b : Byte) :
    (s.storeCell a b).sparseStore = s.sparseStore.put a b := by
  refine congrArg SparseStore.mk (List.ext_getElem (by simp [State.sparseStore]) fun k _ _ => ?_)
  simp [List.getElem_modify, State.sparseStore, State.bucket_storeCell h]

theorem State.sparseStore_memWrite_byte {s : State} (h : s.CellsCanonical) (addr : Addr) (v : Word) :
    (s.memWrite addr .byte v).sparseStore = s.sparseStore.put addr (v.setWidth 8) := by
  rw [State.memWrite_byte, State.sparseStore_storeCell h, extract_byte, BitVec.ushiftRight_zero]

theorem State.sparseStore_memWrite_word {s : State} (h : s.CellsCanonical) (addr : Addr) (v : Word) :
    (s.memWrite addr .word v).sparseStore =
      (((s.sparseStore.put addr (v.setWidth 8)).put (addr + 1#32) ((v >>> 8).setWidth 8)).put
        (addr + 2#32) ((v >>> 16).setWidth 8)).put (addr + 3#32) ((v >>> 24).setWidth 8) := by
  have h1 := h.storeCell addr (v.extractLsb' 0 8)
  have h2 := h1.storeCell (addr + 1#32) (v.extractLsb' 8 8)
  have h3 := h2.storeCell (addr + 2#32) (v.extractLsb' 16 8)
  rw [State.memWrite_word, State.sparseStore_storeCell h3, State.sparseStore_storeCell h2,
    State.sparseStore_storeCell h1, State.sparseStore_storeCell h]
  simp only [extract_byte, BitVec.ushiftRight_zero]

end Sys2Proof.Machine

namespace Sys2Proof
open Machine

/-- Settles O47: the cell writes of a store are `put`s, one by one, and a register write touches no cell. -/
theorem machineStepsSparseStoreByPut : Obligations.MachineStepsSparseStoreByPut := by
  refine ⟨fun cfg regInit => State.sparseStore_of_written_nil rfl, fun s => State.sparseStore_of_written_nil rfl,
    fun s t rs2 rs1 imm hs h => ?_, fun s t rs2 rs1 imm hs h => ?_, fun i s t hrd h => ?_⟩
  · obtain rfl := State.store_next (n := .byte) h
    exact State.sparseStore_memWrite_byte hs.cellsCanonical _ _
  · obtain rfl := State.store_next (n := .word) h
    exact State.sparseStore_memWrite_word hs.cellsCanonical _ _
  · obtain ⟨rd, hrd⟩ := Option.ne_none_iff_exists'.1 hrd
    obtain ⟨v, -, he⟩ := exec_of_rd hrd s
    obtain rfl := Host.Outcome.next.inj (he.symm.trans h)
    exact State.sparseStore_writeReg s rd v

/-- Settles O48: a bucket lists the cells of the addresses in `W` that hash to it. -/
theorem sparseStoreHoldsTheCells : Obligations.SparseStoreHoldsTheCells := by
  intro s hs
  refine ⟨hs.sparseStore_get, State.sparseStore_size hs.nodup, s.sparseStore_length, fun k c hc => ?_⟩
  obtain ⟨hk, -⟩ := List.getElem?_eq_some_iff.1 hc
  obtain rfl : s.bucket k = c :=
    Option.some.inj ((State.sparseStore_getElem? (s.sparseStore_length ▸ hk)).symm.trans hc)
  exact ⟨s.bucket_size k, State.bucket_keys_nodup hs.nodup k,
    fun n hn => (State.mem_bucket_keys.1 (List.mem_map_of_mem hn)).2⟩

/-- Settles O49: `insert_or_update` overwrites the one node with the key, or puts a new one at the head. -/
theorem sequenceContainerLaws : Obligations.SequenceContainerLaws := by
  intro c k v hsize hkeys
  have hget := SeqContainer.get_insertOrUpdate c k v
  have hkeys' := SeqContainer.insertOrUpdate_keys c k v
  refine ⟨by rw [hget, if_pos rfl], fun k' hk' => by rw [hget, if_neg hk'], SeqContainer.insertOrUpdate_size hsize k v,
    ?_, SeqContainer.insertOrUpdate_twice c k v, fun h => ?_, fun h => ?_, SeqContainer.get_of_not_mem⟩
  · rw [hkeys']
    exact hkeys.insert
  · rw [hkeys', List.insert_of_mem h]
  · rw [SeqContainer.insertOrUpdate_of_not_mem h]

end Sys2Proof
end

section
/-! PROOFS. The instruction word (30_encoding.md section 3): the decoder and the encoder invert each other, so what the
opcode table and the formats say of a decoded word is read off the word of the instruction it decodes to. -/

namespace Sys2Proof
open Machine

/-! ### What a decoder of one opcode answers is well formed, and its format gives the fields back -/

theorem encode_of_decodeR {ext : ExtRType} {f7 : BitVec 7} {f3 : BitVec 3} {rd rs1 rs2 : RegIdx} {i : Instr}
    (h : decodeR ext f7 f3 rd rs1 rs2 = .instr i) :
    encode i = formatR f7 rs2 rs1 f3 rd 0b0110011#7 ∧ i.wellFormed ext = true := by
  unfold decodeR at h
  split_ifs at h <;> cases h <;> subst f7 f3 <;> exact ⟨rfl, by simp only [Instr.wellFormed, *]⟩

theorem encode_of_decodeI {f3 : BitVec 3} {rd rs1 : RegIdx} {imm : Word} {i : Instr}
    (h : decodeI f3 rd rs1 imm = .instr i) (ext : ExtRType) :
    encode i = formatI imm rs1 f3 rd 0b0010011#7 ∧ i.wellFormed ext = immFits12 imm := by
  unfold decodeI at h
  split_ifs at h <;> cases h <;> subst f3 <;> exact ⟨rfl, rfl⟩

theorem encode_of_decodeLoad {f3 : BitVec 3} {rd rs1 : RegIdx} {imm : Word} {i : Instr}
    (h : decodeLoad f3 rd rs1 imm = .instr i) (ext : ExtRType) :
    encode i = formatI imm rs1 f3 rd 0b0000011#7 ∧ i.wellFormed ext = immFits12 imm := by
  unfold decodeLoad at h
  split_ifs at h <;> cases h <;> subst f3 <;> exact ⟨rfl, rfl⟩

theorem encode_of_decodeStore {f3 : BitVec 3} {rs2 rs1 : RegIdx} {imm : Word} {i : Instr}
    (h : decodeStore f3 rs2 rs1 imm = .instr i) (ext : ExtRType) :
    encode i = formatS imm rs2 rs1 f3 0b0100011#7 ∧ i.wellFormed ext = immFits12 imm := by
  unfold decodeStore at h
  split_ifs at h <;> cases h <;> subst f3 <;> exact ⟨rfl, rfl⟩

/-- What a word decodes to is well formed and has that word (R97, R117): the word is the format of its own fields. -/
theorem encode_of_decode {ext : ExtRType} {w : Word} {i : Instr} (h : decode ext w = .instr i) :
    encode i = w ∧ i.wellFormed ext = true := by
  unfold decode at h
  split_ifs at h with hop hop hop hop hop
  · obtain ⟨he, hwf⟩ := encode_of_decodeR h
    exact ⟨by rw [he, ← hop, formatR_fields], hwf⟩
  · obtain ⟨he, hwf⟩ := encode_of_decodeI h ext
    exact ⟨by rw [he, ← hop, formatI_fields], hwf.trans (immFits12_signExtend _)⟩
  · obtain ⟨he, hwf⟩ := encode_of_decodeLoad h ext
    exact ⟨by rw [he, ← hop, formatI_fields], hwf.trans (immFits12_signExtend _)⟩
  · obtain ⟨he, hwf⟩ := encode_of_decodeStore h ext
    exact ⟨by rw [he, ← hop, formatS_fields], hwf.trans (immFits12_signExtend _)⟩
  · cases h
    exact ⟨by rw [encode, ← hop, formatU_fields], immIsUpper_wordImmU w⟩

/-- Decoding, said without the decoder: the words that decode to `i` are the word of a well-formed `i` (R117). -/
theorem decode_eq_instr_iff {ext : ExtRType} {w : Word} {i : Instr} :
    decode ext w = .instr i ↔ encode i = w ∧ i.wellFormed ext = true :=
  ⟨encode_of_decode, by rintro ⟨rfl, h⟩; exact decode_encode h⟩

/-! ### The rows of the opcode table (R99 to R104): every word of a row is its format of the word's own fields -/

/-- Every instruction's word matches the row of its name. -/
theorem encode_hits_row (i : Instr) : Laws.EncodeHitsRow.Statement i := by
  cases i with
  | add rd rs1 rs2 => exact Laws.EncodeHitsRow.add rd rs1 rs2
  | sub rd rs1 rs2 => exact Laws.EncodeHitsRow.sub rd rs1 rs2
  | and rd rs1 rs2 => exact Laws.EncodeHitsRow.and rd rs1 rs2
  | or rd rs1 rs2 => exact Laws.EncodeHitsRow.or rd rs1 rs2
  | xor rd rs1 rs2 => exact Laws.EncodeHitsRow.xor rd rs1 rs2
  | slt rd rs1 rs2 => exact Laws.EncodeHitsRow.slt rd rs1 rs2
  | sll rd rs1 rs2 => exact Laws.EncodeHitsRow.sll rd rs1 rs2
  | sra rd rs1 rs2 => exact Laws.EncodeHitsRow.sra rd rs1 rs2
  | nor rd rs1 rs2 => exact Laws.EncodeHitsRow.nor rd rs1 rs2
  | sla rd rs1 rs2 => exact Laws.EncodeHitsRow.sla rd rs1 rs2
  | addi rd rs1 imm => exact Laws.EncodeHitsRow.addi rd rs1 imm
  | andi rd rs1 imm => exact Laws.EncodeHitsRow.andi rd rs1 imm
  | ori rd rs1 imm => exact Laws.EncodeHitsRow.ori rd rs1 imm
  | xori rd rs1 imm => exact Laws.EncodeHitsRow.xori rd rs1 imm
  | slti rd rs1 imm => exact Laws.EncodeHitsRow.slti rd rs1 imm
  | lw rd rs1 imm => exact Laws.EncodeHitsRow.lw rd rs1 imm
  | lb rd rs1 imm => exact Laws.EncodeHitsRow.lb rd rs1 imm
  | sw rs2 rs1 imm => exact Laws.EncodeHitsRow.sw rs2 rs1 imm
  | sb rs2 rs1 imm => exact Laws.EncodeHitsRow.sb rs2 rs1 imm
  | lui rd imm => exact Laws.EncodeHitsRow.lui rd imm

theorem exists_row (o : Op) : ∃ r ∈ opTable, r.op = o := by
  cases o with
  | reg o | imm o | load o | store o => cases o <;> decide
  | lui => decide

theorem row_eq_of_op_eq : ∀ r ∈ opTable, ∀ r' ∈ opTable, r.op = r'.op → r = r' := by decide

theorem enabled_of_wellFormed {ext : ExtRType} {i : Instr} (h : i.wellFormed ext = true) :
    i.op.enabled ext = true := by
  cases i with
  | nor | sla => exact h
  | _ => rfl

theorem enabled_all (o : Op) : o.enabled ExtRType.all = true := by
  cases o with
  | reg o => cases o <;> rfl
  | _ => rfl

theorem formatR_of_mask {w : Word} {f7 : BitVec 7} {f3 : BitVec 3} {op : BitVec 7}
    (h : w &&& 0xFE00707F#32 = formatR f7 0 0 f3 0 op) :
    formatR f7 (wordRs2 w) (wordRs1 w) f3 (wordRd w) op = w := by
  obtain ⟨rfl, rfl, rfl⟩ := (maskR_iff w f7 f3 op).1 h
  exact formatR_fields w

theorem formatI_of_mask {w : Word} {f3 : BitVec 3} {op : BitVec 7} (h : w &&& 0x0000707F#32 = formatR 0 0 0 f3 0 op) :
    formatI (wordImmI w) (wordRs1 w) f3 (wordRd w) op = w := by
  obtain ⟨rfl, rfl⟩ := (maskIS_iff w f3 op).1 h
  exact formatI_fields w

theorem formatS_of_mask {w : Word} {f3 : BitVec 3} {op : BitVec 7} (h : w &&& 0x0000707F#32 = formatR 0 0 0 f3 0 op) :
    formatS (wordImmS w) (wordRs2 w) (wordRs1 w) f3 op = w := by
  obtain ⟨rfl, rfl⟩ := (maskIS_iff w f3 op).1 h
  exact formatS_fields w

theorem formatU_of_mask {w : Word} {op : BitVec 7} (h : w &&& 0x0000007F#32 = formatR 0 0 0 0 0 op) :
    formatU (wordImmU w) (wordRd w) op = w := by
  obtain rfl := (maskU_iff w op).1 h
  exact formatU_fields w

/-- The instruction of a given name whose operands are the fields of `w` in the name's format (R93 to R97). -/
def Op.ofFields (w : Word) : Op → Instr
  | .reg o   => ROp.instr (wordRd w) (wordRs1 w) (wordRs2 w) o
  | .imm o   => IOp.instr (wordRd w) (wordRs1 w) (wordImmI w) o
  | .load o  => LoadOp.instr (wordRd w) (wordRs1 w) (wordImmI w) o
  | .store o => StoreOp.instr (wordRs2 w) (wordRs1 w) (wordImmS w) o
  | .lui     => .lui (wordRd w) (wordImmU w)

theorem Op.op_ofFields (w : Word) (o : Op) : (o.ofFields w).op = o := by
  cases o with
  | reg o | imm o | load o | store o => cases o <;> rfl
  | lui => rfl

theorem Op.wellFormed_ofFields (ext : ExtRType) (w : Word) (o : Op) :
    (o.ofFields w).wellFormed ext = o.enabled ext := by
  cases o with
  | reg o => exact wellFormed_instr_reg ext o _ _ _
  | imm o => exact (wellFormed_instr_imm ext o _ _ _).trans (immFits12_signExtend _)
  | load o => exact (wellFormed_instr_load ext o _ _ _).trans (immFits12_signExtend _)
  | store o => exact (wellFormed_instr_store ext o _ _ _).trans (immFits12_signExtend _)
  | lui => exact immIsUpper_wordImmU w

/-- A word that matches a row is the word of the row's instruction with the word's own fields: mask and match fix the
row's constants, and every other bit stands in a field (R107). -/
theorem encode_ofFields_of_hits (w : Word) : ∀ r ∈ opTable, r.hits w → encode (r.op.ofFields w) = w := by
  refine Laws.forall_opTable ⟨?_, ?_, ?_, ?_, ?_, ?_, ?_, ?_, ?_, ?_, ?_, ?_, ?_, ?_, ?_, ?_, ?_, ?_, ?_, ?_⟩
  iterate 10 exact fun h => formatR_of_mask h
  iterate 7 exact fun h => formatI_of_mask h
  iterate 2 exact fun h => formatS_of_mask h
  exact fun h => formatU_of_mask h

/-- The decoder reads a word that matches an existing row as the row's instruction with the word's fields. -/
theorem decode_of_hits {ext : ExtRType} {w : Word} {r : OpRow} (hr : r ∈ opTable) (h : r.hits w)
    (he : r.op.enabled ext = true) : decode ext w = .instr (r.op.ofFields w) :=
  decode_eq_instr_iff.2 ⟨encode_ofFields_of_hits w r hr h, (Op.wellFormed_ofFields ext w r.op).trans he⟩

/-- A word that decodes to an instruction matches the row of its name, and the row exists. -/
theorem hits_of_decode {ext : ExtRType} {w : Word} {i : Instr} (h : decode ext w = .instr i) {r : OpRow}
    (hr : r ∈ opTable) (hop : r.op = i.op) : r.hits w ∧ r.op.enabled ext = true := by
  obtain ⟨rfl, hwf⟩ := encode_of_decode h
  exact ⟨encode_hits_row i r hr hop, hop ▸ enabled_of_wellFormed hwf⟩

/-- The operands of a decoded instruction are the fields of the word. -/
theorem eq_ofFields_of_decode {ext : ExtRType} {w : Word} {i : Instr} (h : decode ext w = .instr i) :
    i = i.op.ofFields w := by
  obtain ⟨r, hr, hop⟩ := exists_row i.op
  obtain ⟨hhits, hen⟩ := hits_of_decode h hr hop
  rw [← hop]
  exact Decoded.instr.inj (h.symm.trans (decode_of_hits hr hhits hen))

/-! ### The fields of the instruction made of a word's fields -/

theorem Op.rd_ofFields {w : Word} {o : Op} {r : RegIdx} (h : (o.ofFields w).rd? = some r) : r = wordRd w := by
  cases o with
  | reg o | imm o | load o | store o => cases o <;> cases h <;> rfl
  | lui => cases h; rfl

theorem Op.rs1_ofFields {w : Word} {o : Op} {r : RegIdx} (h : (o.ofFields w).rs1? = some r) : r = wordRs1 w := by
  cases o with
  | reg o | imm o | load o | store o => cases o <;> cases h <;> rfl
  | lui => cases h

theorem Op.rs2_ofFields {w : Word} {o : Op} {r : RegIdx} (h : (o.ofFields w).rs2? = some r) : r = wordRs2 w := by
  cases o with
  | reg o | imm o | load o | store o => cases o <;> cases h <;> rfl
  | lui => cases h

theorem IOp.imm_ofFields (w : Word) (o : IOp) : ((Op.imm o).ofFields w).imm? = some (wordImmI w) := by cases o <;> rfl

theorem LoadOp.imm_ofFields (w : Word) (o : LoadOp) : ((Op.load o).ofFields w).imm? = some (wordImmI w) := by
  cases o <;> rfl

theorem StoreOp.imm_ofFields (w : Word) (o : StoreOp) : ((Op.store o).ofFields w).imm? = some (wordImmS w) := by
  cases o <;> rfl

/-- Settles O1: the format's fields select the instruction's row, and give its operands back. -/
theorem decodeOfEncode : Obligations.DecodeOfEncode := fun _ _ h => decode_encode h

/-- Settles O2: the decoder's constants and the fields of the word make up the word's format again. -/
theorem encodeOfDecode : Obligations.EncodeOfDecode := fun _ _ _ h => encode_of_decode h

/-- Settles O3: a word that matches an existing row is the encoding of the row's instruction, and every instruction's
encoding matches its row. -/
theorem decodeFollowsOpcodeTable : Obligations.DecodeFollowsOpcodeTable := by
  intro ext w
  refine ⟨fun r hr => ⟨?_, ?_⟩, ?_, ?_⟩
  · rintro ⟨i, hi, hop⟩
    exact hits_of_decode hi hr hop.symm
  · rintro ⟨hhits, hen⟩
    exact ⟨_, decode_of_hits hr hhits hen, Op.op_ofFields w r.op⟩
  · rintro ⟨why, hw⟩ r hr hen hhits
    cases hw.symm.trans (decode_of_hits hr hhits hen)
  · intro hnone
    cases hd : decode ext w with
    | unknown why => exact ⟨why, rfl⟩
    | instr i =>
      obtain ⟨r, hr, hop⟩ := exists_row i.op
      obtain ⟨hhits, hen⟩ := hits_of_decode hd hr hop
      exact absurd hhits (hnone r hr hen)

/-- Settles O4: with every row existing, a word decodes to the one instruction whose name both rows bear. -/
theorem opcodeRowsDisjoint : Obligations.OpcodeRowsDisjoint := by
  intro w r hr r' hr' h h'
  have hd := decode_of_hits hr h (enabled_all r.op)
  have hd' := decode_of_hits hr' h' (enabled_all r'.op)
  have hop := congrArg Instr.op (Decoded.instr.inj (hd.symm.trans hd'))
  rw [Op.op_ofFields, Op.op_ofFields] at hop
  exact row_eq_of_op_eq r hr r' hr' hop

/-- Settles O5: a decoded instruction is made of the word's fields, which are the document's slices. -/
theorem decodedFieldsAreWordSlices : Obligations.DecodedFieldsAreWordSlices := by
  intro ext w i h
  have hi := eq_ofFields_of_decode h
  simp only [slice_rd, slice_rs1, slice_rs2, slice_immI, slice_immS, slice_immU]
  generalize i.op = o at hi
  subst hi
  refine ⟨fun _ => Op.rd_ofFields, fun _ => Op.rs1_ofFields, fun _ => Op.rs2_ofFields, fun v hv => ⟨?_, ?_, ?_⟩⟩
  · rintro (⟨o', rfl⟩ | ⟨o', rfl⟩)
    · exact Option.some.inj (hv.symm.trans (IOp.imm_ofFields w o'))
    · exact Option.some.inj (hv.symm.trans (LoadOp.imm_ofFields w o'))
  · rintro ⟨o', rfl⟩
    exact Option.some.inj (hv.symm.trans (StoreOp.imm_ofFields w o'))
  · rintro rfl
    exact (Option.some.inj hv).symm

end Sys2Proof
end

section
/-! PROOFS. The text level (30_encoding.md section 4): tokens, register tokens and literals, the operand count, and the
assembler on the canonical spelling of an instruction (R109 to R121). -/

namespace Sys2Proof.Machine

/-! ### Immediates from literals (R97) -/

theorem setWidth_ofInt {n m : Nat} (h : n ≤ m) (v : Int) : (BitVec.ofInt m v).setWidth n = BitVec.ofInt n v := by
  have hnn (k : Nat) : 0 ≤ v % ((2 ^ k : Nat) : Int) := Int.emod_nonneg _ (by positivity)
  apply BitVec.eq_of_toNat_eq
  rw [BitVec.toNat_setWidth, BitVec.toNat_ofInt, BitVec.toNat_ofInt, ← Int.natCast_inj, Int.natCast_mod,
    Int.toNat_of_nonneg (hnn m), Int.toNat_of_nonneg (hnn n)]
  exact Int.emod_emod_of_dvd v (Int.natCast_dvd_natCast.2 (Nat.pow_dvd_pow 2 h))

/-- The two shifts of the document read the low 12 bits alone, which are `v mod 2^12`. -/
theorem literalImm12_eq (v : Int) : literalImm12 v = shiftSext12 (BitVec.ofInt 32 v) := by
  rw [shiftSext12_eq, ← BitVec.setWidth_eq_extractLsb' (by omega), setWidth_ofInt (by omega), literalImm12]

theorem literalImm20_eq (v : Int) : literalImm20 v = BitVec.ofInt 32 v <<< 12 := by
  rw [literalImm20, ← setWidth_ofInt (m := 32) (by omega)]
  apply BitVec.eq_of_getLsbD_eq
  intro i hi
  simp only [BitVec.getLsbD_append, BitVec.getLsbD_setWidth, BitVec.getLsbD_shiftLeft]
  by_cases h : i < 12
  · simp [h]
  · have : i - 12 < 20 := by omega
    simp [h, hi, this]

theorem literalImm12_toInt {imm : Word} (h : immFits12 imm = true) : literalImm12 imm.toInt = imm := by
  rw [literalImm12_eq, BitVec.ofInt_toInt, shiftSext12_eq, signExtend_extract12 h]

theorem literalImm20_upper {imm : Word} (h : immIsUpper imm = true) :
    literalImm20 ((imm.toNat / 2 ^ 12 : Nat) : Int) = imm := by
  have hshift : BitVec.ofNat 32 (imm.toNat / 2 ^ 12) = imm >>> 12 := by
    apply BitVec.eq_of_toNat_eq
    have := imm.isLt
    rw [BitVec.toNat_ofNat, BitVec.toNat_ushiftRight, Nat.shiftRight_eq_div_pow]
    omega
  have hlow : imm.extractLsb' 0 12 = 0#12 := by simpa [immIsUpper] using h
  rw [literalImm20_eq, BitVec.ofInt_natCast, hshift, slice_immU, wordImmU, ← hlow,
    BitVec.extractLsb'_append_extractLsb'_eq_extractLsb' (Nat.zero_add 12).symm,
    BitVec.extractLsb'_eq_self]

/-! ### Digits -/

theorem decDigit?_digitChar : ∀ n < 10, decDigit? (digitChar n) = some n := by decide

theorem digitChar_of_decDigit? {c : Char} {n : Nat} (h : decDigit? c = some n) : n < 10 ∧ c = digitChar n := by
  unfold decDigit? at h
  split at h
  case isFalse => cases h
  case isTrue hc =>
    obtain ⟨h0, h9⟩ := hc
    replace h0 : 48 ≤ c.toNat := h0
    replace h9 : c.toNat ≤ 57 := h9
    obtain rfl := Option.some.inj h
    refine ⟨by change c.toNat - 48 < 10; omega, ?_⟩
    change c = Char.ofNat (48 + (c.toNat - 48))
    rw [Nat.add_sub_cancel' h0, Char.ofNat_toNat]

/-- A digit reads back as its value after the value of the digits before it. -/
theorem digitsValue_append (base : Nat) (digit? : Char → Option Nat) (ys : List Char) (xs : List Char) (acc : Nat) :
    digitsValue base digit? acc (xs ++ ys) =
      (digitsValue base digit? acc xs).bind (fun a => digitsValue base digit? a ys) := by
  induction xs generalizing acc with
  | nil => rfl
  | cons x xs ih =>
    rw [List.cons_append, digitsValue, digitsValue]
    cases digit? x with
    | none => rfl
    | some d => exact ih _

/-- The decimal digits of a number with no more digits than the fuel have its value. -/
theorem digitsValue_printNatFuel (fuel n : Nat) (h : n < 10 ^ fuel) :
    digitsValue 10 decDigit? 0 (printNatFuel fuel n) = some n := by
  induction fuel generalizing n with
  | zero =>
    obtain rfl : n = 0 := by omega
    rfl
  | succ fuel ih =>
    rw [printNatFuel]
    split
    next hn => simp [digitsValue, decDigit?_digitChar n hn]
    next hn =>
      rw [digitsValue_append, ih (n / 10) (by omega), Option.bind_some, digitsValue,
        decDigit?_digitChar _ (Nat.mod_lt n (by omega))]
      simp only [digitsValue, Nat.div_add_mod]

theorem mem_printNatFuel {fuel n : Nat} {c : Char} (h : c ∈ printNatFuel fuel n) : ∃ d < 10, c = digitChar d := by
  induction fuel generalizing n with
  | zero => cases h
  | succ fuel ih =>
    rw [printNatFuel] at h
    split at h
    next hn => exact ⟨n, hn, List.mem_singleton.1 h⟩
    next =>
      obtain h | h := List.mem_append.1 h
      · exact ih h
      · exact ⟨n % 10, Nat.mod_lt n (by omega), List.mem_singleton.1 h⟩

/-- A positive number is printed without a leading zero (R114, R121). -/
theorem printNatFuel_head (fuel n : Nat) (hpos : 0 < n) (h : n < 10 ^ fuel) :
    ∃ d cs, 0 < d ∧ d < 10 ∧ printNatFuel fuel n = digitChar d :: cs := by
  induction fuel generalizing n with
  | zero => omega
  | succ fuel ih =>
    rw [printNatFuel]
    split
    next hn => exact ⟨n, [], hpos, hn, rfl⟩
    next hn =>
      obtain ⟨d, cs, h0, h9, hcs⟩ := ih (n / 10) (by omega) (by omega)
      exact ⟨d, cs ++ [digitChar (n % 10)], h0, h9, by rw [hcs]; rfl⟩

/-! ### Literals (R114) -/

theorem digitChar_ne_zero : ∀ d < 10, 0 < d → digitChar d ≠ '0' := by decide

theorem digitChar_ne_minus : ∀ d < 10, digitChar d ≠ '-' := by decide

theorem parseMagnitude_cons {c : Char} (h : c ≠ '0') (cs : List Char) :
    parseMagnitude (c :: cs) = digitsValue 10 decDigit? 0 (c :: cs) := by
  unfold parseMagnitude
  split <;> simp_all

theorem parseLiteral_cons {c : Char} (h0 : c ≠ '0') (hm : c ≠ '-') {cs : List Char} {n : Nat}
    (h : parseMagnitude (c :: cs) = some n) : parseLiteral (c :: cs) = some (n : Int) := by
  unfold parseLiteral
  split <;> simp_all

theorem parseLiteral_minus {cs : List Char} {n : Nat} (h : parseMagnitude cs = some n) :
    parseLiteral ('-' :: cs) = some (-(n : Int)) := by
  simp [parseLiteral, h]

theorem parseMagnitude_printNat {n : Nat} (hpos : 0 < n) (h : n < 10 ^ 10) : parseMagnitude (printNat n) = some n := by
  obtain ⟨d, cs, h0, h9, hcs⟩ := printNatFuel_head 10 n hpos h
  rw [printNat, hcs, parseMagnitude_cons (digitChar_ne_zero d h9 h0), ← hcs, digitsValue_printNatFuel 10 n h]

theorem parseLiteral_printNat {n : Nat} (h : n < 10 ^ 10) : parseLiteral (printNat n) = some (n : Int) := by
  rcases Nat.eq_zero_or_pos n with rfl | hpos
  · rfl
  · obtain ⟨d, cs, h0, h9, hcs⟩ := printNatFuel_head 10 n hpos h
    have hmag := parseMagnitude_printNat hpos h
    rw [printNat, hcs] at hmag ⊢
    exact parseLiteral_cons (digitChar_ne_zero d h9 h0) (digitChar_ne_minus d h9) hmag

theorem parseLiteral_printInt {v : Int} (h : v.natAbs < 10 ^ 10) : parseLiteral (printInt v) = some v := by
  rw [printInt]
  split
  next hneg =>
    rw [parseLiteral_minus (parseMagnitude_printNat (by omega) h)]
    congr 1; omega
  next hneg =>
    rw [parseLiteral_printNat h]
    congr 1; omega

theorem parseImm_of_literal {token : List Char} {v : Int} (h : parseLiteral token = some v) (hlo : -2 ^ 31 ≤ v)
    (hhi : v ≤ 2 ^ 32 - 1) : parseImm token = .ok v := by
  simp only [parseImm, h, if_pos (And.intro hlo hhi)]

/-! ### Register tokens (R113) -/

theorem parseReg_one {d : Char} {n : Nat} (h : decDigit? d = some n) : parseReg ['x', d] = regOfIndex n := by
  simp only [parseReg, h]

theorem parseReg_two {d e : Char} {m n : Nat} (hd : decDigit? d = some m) (he : decDigit? e = some n) :
    parseReg ['x', d, e] = regOfIndex (10 * m + n) := by
  simp only [parseReg, hd, he]

theorem regOfIndex_of_lt {n : Nat} (h : n < 32) : regOfIndex n = .ok (BitVec.ofNat 5 n) := if_pos h

theorem regOfIndex_of_le {n : Nat} (h : 32 ≤ n) : regOfIndex n = .error .registerIndex := if_neg (by omega)

/-- A token that is not `x` and one or two decimal digits is refused as `register_syntax`. -/
theorem parseReg_registerSyntax {token : List Char} (h1 : ∀ n < 10, token ≠ ['x', digitChar n])
    (h2 : ∀ m < 10, ∀ n < 10, token ≠ ['x', digitChar m, digitChar n]) :
    parseReg token = .error .registerSyntax := by
  unfold parseReg
  split
  next d =>
    split
    next n hd =>
      obtain ⟨hn, rfl⟩ := digitChar_of_decDigit? hd
      exact absurd rfl (h1 n hn)
    next => rfl
  next d e =>
    split
    next m n hd he =>
      obtain ⟨hm, rfl⟩ := digitChar_of_decDigit? hd
      obtain ⟨hn, rfl⟩ := digitChar_of_decDigit? he
      exact absurd rfl (h2 m hm n hn)
    next => rfl
  next => rfl

theorem regOfIndex_error {n : Nat} {e : LineError} (h : regOfIndex n = .error e) : e = .registerIndex := by
  unfold regOfIndex at h
  split at h <;> cases h
  rfl

theorem parseReg_ne_operandCount (t : List Char) : parseReg t ≠ .error .operandCount := by
  intro h
  unfold parseReg at h
  split at h
  case h_3 => cases h
  all_goals
    split at h
    · cases regOfIndex_error h
    · cases h

theorem parseImm_ne_operandCount (t : List Char) : parseImm t ≠ .error .operandCount := by
  intro h
  unfold parseImm at h
  split at h
  · cases h
  · split at h <;> cases h

/-! ### The operand count (R112, R233) -/

/-- The number of operands of an instruction name (R115). -/
def Op.operands (o : Op) : Nat := if o = .lui then 2 else 3

/-- A bind ends in an error that its first part never answers only where its second part does. -/
theorem bind_ne_error {α β : Type} {x : Except LineError α} {f : α → Except LineError β} {e : LineError}
    (hx : x ≠ .error e) (hf : ∀ a, f a ≠ .error e) : x >>= f ≠ .error e := by
  cases x with
  | ok a => exact hf a
  | error e' => exact fun h => hx (congrArg Except.error (Except.error.inj h))

/-- A wrong count is the verdict whatever the tokens are. -/
theorem parseOperands_of_count_ne {o : Op} {ts : List (List Char)} (h : ts.length ≠ Op.operands o) :
    parseOperands o ts = .error .operandCount := by
  unfold parseOperands
  split
  case h_1 | h_2 | h_3 | h_4 | h_5 => exact absurd rfl h
  all_goals rfl

/-- With the right count the tokens are read from left to right, and no token is refused for the count. -/
theorem parseOperands_of_count_eq {o : Op} {ts : List (List Char)} (h : ts.length = Op.operands o) :
    parseOperands o ts ≠ .error .operandCount := by
  have hreg := parseReg_ne_operandCount
  have himm := parseImm_ne_operandCount
  cases o with
  | reg =>
    obtain ⟨t1, t2, t3, rfl⟩ := List.length_eq_three.1 h
    exact bind_ne_error (hreg t1) fun _ => bind_ne_error (hreg t2) fun _ => bind_ne_error (hreg t3) fun _ => nofun
  | imm =>
    obtain ⟨t1, t2, t3, rfl⟩ := List.length_eq_three.1 h
    exact bind_ne_error (hreg t1) fun _ => bind_ne_error (hreg t2) fun _ => bind_ne_error (himm t3) fun _ => nofun
  | load | store =>
    obtain ⟨t1, t2, t3, rfl⟩ := List.length_eq_three.1 h
    exact bind_ne_error (hreg t1) fun _ => bind_ne_error (himm t2) fun _ => bind_ne_error (hreg t3) fun _ => nofun
  | lui =>
    obtain ⟨t1, t2, rfl⟩ := List.length_eq_two.1 h
    exact bind_ne_error (hreg t1) fun _ => bind_ne_error (himm t2) fun _ => nofun

theorem parseOperands_operandCount_iff {o : Op} {ts : List (List Char)} :
    parseOperands o ts = .error .operandCount ↔ ts.length ≠ Op.operands o :=
  ⟨fun h hc => parseOperands_of_count_eq hc h, parseOperands_of_count_ne⟩

/-- The verdict on a line of a known mnemonic is the verdict on its operands (R111, R118). -/
theorem assemble_malformed_iff {ext : ExtRType} {text : List Char} {o : Op}
    (h : classify ext (lineMnemonic text) = some o) {e : LineError} :
    assemble ext text = .malformed e ↔ parseOperands o (tokens o.cls (lineTail text)) = .error e := by
  simp only [assemble, h]
  cases parseOperands o (tokens o.cls (lineTail text)) with
  | ok i => exact ⟨nofun, nofun⟩
  | error e' =>
    exact ⟨fun h => congrArg Except.error (Assembled.malformed.inj h),
      fun h => congrArg Assembled.malformed (Except.error.inj h)⟩

/-- A line the assembler refuses is refused by the step with the assembler's reason (R118). -/
theorem step_presentingLine_malformed {s : State} {text : List Char} {e : LineError} (rest : List HostMove)
    (h : assemble s.cfg.ext text = .malformed e) : step (s.presentingLine text rest) = .refused (.malformedLine e) := by
  have hf : fetchLine text { s with host := rest } = .malformed e := by simp only [fetchLine, h]
  rw [step, fetch_presentingLine, hf]

/-! ### Tokens (R112) -/

/-- A text that a class's tokenizer takes as one token. -/
def IsToken (cls : InstrClass) (t : List Char) : Prop := t ≠ [] ∧ ∀ c ∈ t, isDelimiter cls c = false

theorem tokensFrom_append (isDelim : Char → Bool) (t current rest : List Char) (h : ∀ c ∈ t, isDelim c = false) :
    tokensFrom isDelim current (t ++ rest) = tokensFrom isDelim (current ++ t) rest := by
  induction t generalizing current with
  | nil => rw [List.nil_append, List.append_nil]
  | cons c t ih =>
    obtain ⟨hc, ht⟩ := List.forall_mem_cons.1 h
    rw [List.cons_append, tokensFrom, if_neg (by simp [hc]), ih _ ht, List.append_assoc, List.singleton_append]

theorem tokens_delimiter {cls : InstrClass} {d : Char} (hd : isDelimiter cls d = true) (rest : List Char) :
    tokens cls (d :: rest) = tokens cls rest := by
  rw [tokens, tokensFrom, if_pos hd]
  rfl

theorem tokens_token {cls : InstrClass} {t : List Char} (h : IsToken cls t) : tokens cls t = [t] := by
  obtain ⟨hne, ht⟩ := h
  have := tokensFrom_append (isDelimiter cls) t [] [] ht
  rw [List.append_nil, List.nil_append] at this
  rw [tokens, this, tokensFrom, consToken, if_neg hne]

theorem tokens_token_delimiter {cls : InstrClass} {t : List Char} (h : IsToken cls t) {d : Char}
    (hd : isDelimiter cls d = true) (rest : List Char) : tokens cls (t ++ d :: rest) = t :: tokens cls rest := by
  obtain ⟨hne, ht⟩ := h
  rw [tokens, tokensFrom_append _ _ _ _ ht, List.nil_append, tokensFrom, if_pos hd, consToken, if_neg hne]
  rfl

/-- Comma and space are delimiters of every class. -/
theorem isDelimiter_comma (cls : InstrClass) : isDelimiter cls ',' = true := by cases cls <;> rfl

theorem isDelimiter_space (cls : InstrClass) : isDelimiter cls ' ' = true := by cases cls <;> rfl

/-- The canonical separator ends a token (R121). -/
theorem tokens_token_sep {cls : InstrClass} {t : List Char} (h : IsToken cls t) (rest : List Char) :
    tokens cls (t ++ (printSep ++ rest)) = t :: tokens cls rest :=
  (tokens_token_delimiter h (isDelimiter_comma cls) _).trans
    (congrArg _ (tokens_delimiter (isDelimiter_space cls) rest))

theorem tokens_two {cls : InstrClass} {t1 t2 : List Char} (h1 : IsToken cls t1) (h2 : IsToken cls t2) :
    tokens cls (t1 ++ printSep ++ t2) = [t1, t2] := by
  rw [List.append_assoc, tokens_token_sep h1, tokens_token h2]

theorem tokens_three {cls : InstrClass} {t1 t2 t3 : List Char} (h1 : IsToken cls t1) (h2 : IsToken cls t2)
    (h3 : IsToken cls t3) : tokens cls (t1 ++ printSep ++ t2 ++ printSep ++ t3) = [t1, t2, t3] := by
  simp only [List.append_assoc, tokens_token_sep h1, tokens_token_sep h2, tokens_token h3]

/-! ### What the printer prints is a token -/

theorem isDelimiter_digitChar (cls : InstrClass) : ∀ d < 10, isDelimiter cls (digitChar d) = false := by
  cases cls <;> decide

theorem printNatFuel_ne_nil (fuel n : Nat) : printNatFuel (fuel + 1) n ≠ [] := by
  rw [printNatFuel]
  split <;> simp

theorem printNat_isToken (cls : InstrClass) (n : Nat) : IsToken cls (printNat n) := by
  refine ⟨printNatFuel_ne_nil 9 n, fun c hc => ?_⟩
  obtain ⟨d, hd, rfl⟩ := mem_printNatFuel hc
  exact isDelimiter_digitChar cls d hd

theorem IsToken.cons {cls : InstrClass} {t : List Char} (h : IsToken cls t) {c : Char}
    (hc : isDelimiter cls c = false) : IsToken cls (c :: t) :=
  ⟨List.cons_ne_nil c t, List.forall_mem_cons.2 ⟨hc, h.2⟩⟩

theorem printReg_isToken (cls : InstrClass) (r : RegIdx) : IsToken cls (printReg r) :=
  (printNat_isToken cls r.toNat).cons (by cases cls <;> rfl)

theorem printInt_isToken (cls : InstrClass) (v : Int) : IsToken cls (printInt v) := by
  rw [printInt]
  split
  · exact (printNat_isToken cls v.natAbs).cons (by cases cls <;> rfl)
  · exact printNat_isToken cls v.natAbs

/-! ### What the printer prints reads back -/

theorem parseReg_printReg : ∀ r : RegIdx, parseReg (printReg r) = .ok r := by decide

theorem parseImm_printInt {imm : Word} (h : immFits12 imm = true) : parseImm (printInt imm.toInt) = .ok imm.toInt := by
  obtain ⟨hlo, hhi⟩ := Bool.and_eq_true_iff.1 h
  replace hlo := of_decide_eq_true hlo
  replace hhi := of_decide_eq_true hhi
  exact parseImm_of_literal (parseLiteral_printInt (by omega)) (by omega) (by omega)

theorem parseImm_printUpper (imm : Word) :
    parseImm (printNat (imm.toNat / 2 ^ 12)) = .ok ((imm.toNat / 2 ^ 12 : Nat) : Int) := by
  have := imm.isLt
  exact parseImm_of_literal (parseLiteral_printNat (by omega)) (by omega) (by omega)

/-! ### The mnemonic (R110, R111) -/

theorem mem_membershipSets (o : Op) : o ∈ membershipSets := by
  cases o with
  | reg o | imm o | load o | store o => cases o <;> decide
  | lui => decide

theorem text_injOn_membershipSets : ∀ o ∈ membershipSets, ∀ o' ∈ membershipSets, Op.text o = Op.text o' → o = o' := by
  decide

theorem space_not_mem_text : ∀ o ∈ membershipSets, ' ' ∉ Op.text o := by decide

/-- A mnemonic is classified by exact equality (R111). -/
theorem text_of_classify {ext : ExtRType} {mnemonic : List Char} {o : Op} (h : classify ext mnemonic = some o) :
    Op.text o = mnemonic := by
  have hp := List.find?_some (by simpa only [classify] using h)
  exact beq_iff_eq.1 (Bool.and_eq_true_iff.1 hp).2

/-- An enabled mnemonic is classified as its own name: no two names share a mnemonic. -/
theorem classify_text {ext : ExtRType} {o : Op} (h : o.enabled ext = true) : classify ext (Op.text o) = some o := by
  have hfound : (classify ext (Op.text o)).isSome := by
    rw [classify, List.find?_isSome]
    exact ⟨o, mem_membershipSets o, by simp [h]⟩
  obtain ⟨o', ho'⟩ := Option.isSome_iff_exists.1 hfound
  rw [ho', text_injOn_membershipSets o' (mem_membershipSets o') o (mem_membershipSets o) (text_of_classify ho')]

theorem lineMnemonic_append {m : List Char} (h : ' ' ∉ m) (tail : List Char) : lineMnemonic (m ++ ' ' :: tail) = m := by
  induction m with
  | nil => rfl
  | cons c m ih =>
    obtain ⟨hc, hm⟩ := not_or.1 (mt List.mem_cons.2 h)
    rw [List.cons_append, lineMnemonic, if_neg (Ne.symm hc), ih hm]

theorem lineTail_append {m : List Char} (h : ' ' ∉ m) (tail : List Char) : lineTail (m ++ ' ' :: tail) = tail := by
  induction m with
  | nil => rfl
  | cons c m ih =>
    obtain ⟨hc, hm⟩ := not_or.1 (mt List.mem_cons.2 h)
    rw [List.cons_append, lineTail, if_neg (Ne.symm hc), ih hm]

/-- A line made of an enabled mnemonic, a space and a tail assembles to what its operands make. -/
theorem assemble_of_parseOperands {ext : ExtRType} {o : Op} (ho : o.enabled ext = true) {tail : List Char} {i : Instr}
    (h : parseOperands o (tokens o.cls tail) = .ok i) : assemble ext (Op.text o ++ ' ' :: tail) = .instr i := by
  have hs := space_not_mem_text o (mem_membershipSets o)
  simp only [assemble, lineMnemonic_append hs, lineTail_append hs, classify_text ho, h]

/-! ### The assembler on a printed instruction, class by class (R116, R121) -/

theorem assemble_printR {ext : ExtRType} (o : ROp) (ho : Op.enabled ext (.reg o) = true) (rd rs1 rs2 : RegIdx) :
    assemble ext (printR o rd rs1 rs2) = .instr (ROp.instr rd rs1 rs2 o) := by
  refine assemble_of_parseOperands (o := .reg o) ho ?_
  rw [tokens_three (printReg_isToken _ rd) (printReg_isToken _ rs1) (printReg_isToken _ rs2)]
  simp only [parseOperands, parseReg_printReg]
  rfl

theorem assemble_printI (ext : ExtRType) (o : IOp) (rd rs1 : RegIdx) {imm : Word} (h : immFits12 imm = true) :
    assemble ext (printI o rd rs1 imm) = .instr (IOp.instr rd rs1 imm o) := by
  refine assemble_of_parseOperands (o := .imm o) rfl ?_
  rw [tokens_three (printReg_isToken _ rd) (printReg_isToken _ rs1) (printInt_isToken _ imm.toInt)]
  simp only [parseOperands, parseReg_printReg, parseImm_printInt h]
  exact congrArg (fun v => Except.ok (IOp.instr rd rs1 v o)) (literalImm12_toInt h)

/-- The tail of a load or store: parentheses are delimiters of class M. -/
theorem tokens_memory (r rs1 : RegIdx) (imm : Word) :
    tokens .memory (printReg r ++ printSep ++ printMemOperand rs1 imm) =
      [printReg r, printInt imm.toInt, printReg rs1] := by
  rw [List.append_assoc, tokens_token_sep (printReg_isToken _ r), printMemOperand,
    tokens_token_delimiter (printInt_isToken _ imm.toInt) rfl,
    tokens_token_delimiter (printReg_isToken _ rs1) rfl]
  rfl

theorem assemble_printLoad (ext : ExtRType) (o : LoadOp) (rd rs1 : RegIdx) {imm : Word} (h : immFits12 imm = true) :
    assemble ext (LoadOp.text o ++ ' ' :: (printReg rd ++ printSep ++ printMemOperand rs1 imm)) =
      .instr (LoadOp.instr rd rs1 imm o) := by
  refine assemble_of_parseOperands (o := .load o) rfl ?_
  rw [Op.cls, tokens_memory]
  simp only [parseOperands, parseReg_printReg, parseImm_printInt h]
  exact congrArg (fun v => Except.ok (LoadOp.instr rd rs1 v o)) (literalImm12_toInt h)

theorem assemble_printStore (ext : ExtRType) (o : StoreOp) (rs2 rs1 : RegIdx) {imm : Word} (h : immFits12 imm = true) :
    assemble ext (StoreOp.text o ++ ' ' :: (printReg rs2 ++ printSep ++ printMemOperand rs1 imm)) =
      .instr (StoreOp.instr rs2 rs1 imm o) := by
  refine assemble_of_parseOperands (o := .store o) rfl ?_
  rw [Op.cls, tokens_memory]
  simp only [parseOperands, parseReg_printReg, parseImm_printInt h]
  exact congrArg (fun v => Except.ok (StoreOp.instr rs2 rs1 v o)) (literalImm12_toInt h)

theorem assemble_printLui (ext : ExtRType) (rd : RegIdx) {imm : Word} (h : immIsUpper imm = true) :
    assemble ext (printInstr (.lui rd imm)) = .instr (.lui rd imm) := by
  refine assemble_of_parseOperands (o := .lui) rfl ?_
  rw [tokens_two (printReg_isToken _ rd) (printNat_isToken _ _)]
  simp only [parseOperands, parseReg_printReg, parseImm_printUpper]
  exact congrArg (fun v => Except.ok (Instr.lui rd v)) (literalImm20_upper h)

/-- The assembler reads a printed instruction back (R116, R121). -/
theorem assemble_printInstr {ext : ExtRType} {i : Instr} (h : i.wellFormed ext = true) :
    assemble ext (printInstr i) = .instr i := by
  cases i with
  | add | sub | and | or | xor | slt | sll | sra | nor | sla =>
    exact assemble_printR _ (enabled_of_wellFormed h) _ _ _
  | addi | andi | ori | xori | slti => exact assemble_printI ext _ _ _ h
  | lw | lb => exact assemble_printLoad ext _ _ _ h
  | sw | sb => exact assemble_printStore ext _ _ _ h
  | lui => exact assemble_printLui ext _ h

end Sys2Proof.Machine

namespace Sys2Proof
open Machine

/-- Settles O51: mnemonic, register tokens and literals of the canonical spelling each read back. -/
theorem assembleOfPrint : Obligations.AssembleOfPrint := fun _ _ h => assemble_printInstr h

/-- Settles O53: reducing a literal modulo 2^12 or 2^20 keeps exactly the bits that the document's shifts keep. -/
theorem literalsReachTheShiftedImmediates : Obligations.LiteralsReachTheShiftedImmediates := by
  intro v
  obtain ⟨hlo, hhi⟩ := Bool.and_eq_true_iff.1 (immFits12_literalImm12 v)
  exact ⟨literalImm12_eq v, literalImm20_eq v, of_decide_eq_true hlo, of_decide_eq_true hhi⟩

/-- Settles O54: the count alone decides `operand_count`, since no token is refused with that reason. -/
theorem operandCountIsCheckedFirst : Obligations.OperandCountIsCheckedFirst := by
  intro ext text o ho
  refine ⟨(assemble_malformed_iff ho).trans parseOperands_operandCount_iff, ?_⟩
  rintro s rest e rfl he
  exact step_presentingLine_malformed rest he

/-- Settles O55: the digits are read by value, and a token that reads as a register has no other shape. -/
theorem registerTokens : Obligations.RegisterTokens := by
  refine ⟨fun n hn => ?_, fun m hm n hn h => ?_, fun m hm n hn h => ?_, fun _ => parseReg_registerSyntax⟩
  · rw [parseReg_one (decDigit?_digitChar n hn), regOfIndex_of_lt (by omega)]
  · rw [parseReg_two (decDigit?_digitChar m hm) (decDigit?_digitChar n hn), regOfIndex_of_lt h]
  · rw [parseReg_two (decDigit?_digitChar m hm) (decDigit?_digitChar n hn), regOfIndex_of_le h]

/-- Settles O6: each line, word and decoded form of the document's table, evaluated. -/
theorem workedEncodings : Obligations.WorkedEncodings := by
  unfold Obligations.WorkedEncodings
  decide

end Sys2Proof
end

section
/-! PROOFS. The step of 40_step_transaction.md: what a presented word or line runs (R140, R141), what an instruction
writes (R144), what changes nothing (R140, R145, R150), and that only a store without room and a malformed line stop the
machine (R146). -/

namespace Sys2Proof.Machine

/-! ### The step, by what it fetches -/

theorem step_of_fetch_run {s s' : State} {i : Instr} (h : fetch s = .run i s') : step s = exec i s' := by
  rw [step, h]

theorem step_of_fetch_settled {s s' : State} (h : fetch s = .settled s') : step s = .next s' := by rw [step, h]

theorem fetchCycle_valid {p : Pins} (hrst : p.rst = false) (hvalid : p.instrValid = true) (s : State) :
    fetchCycle p s = fetchWord p.instr s := by simp [fetchCycle, hrst, hvalid]

theorem fetchCycle_idle {p : Pins} (hrst : p.rst = false) (hvalid : p.instrValid = false) (s : State) :
    fetchCycle p s = .settled s := by simp [fetchCycle, hrst, hvalid]

theorem step_cycle_run {s : State} {p : Pins} {rest : List HostMove} {i : Instr} (h : s.host = .cycle p :: rest)
    (hrst : p.rst = false) (hvalid : p.instrValid = true) (hi : decode s.cfg.ext p.instr = .instr i) :
    step s = exec i { s with host := rest } := by
  refine step_of_fetch_run ((fetch_cons h).trans ?_)
  exact (fetchCycle_valid hrst hvalid _).trans (fetchWord_instr (s := { s with host := rest }) hi)

theorem step_cycle_unknown {s : State} {p : Pins} {rest : List HostMove} {why : UnknownWhy}
    (h : s.host = .cycle p :: rest) (hrst : p.rst = false) (hvalid : p.instrValid = true)
    (hw : decode s.cfg.ext p.instr = .unknown why) : step s = .next { s with host := rest } := by
  refine step_of_fetch_settled ((fetch_cons h).trans ?_)
  exact (fetchCycle_valid hrst hvalid _).trans (fetchWord_unknown (s := { s with host := rest }) hw)

theorem step_cycle_idle {s : State} {p : Pins} {rest : List HostMove} (h : s.host = .cycle p :: rest)
    (hrst : p.rst = false) (hvalid : p.instrValid = false) : step s = .next { s with host := rest } :=
  step_of_fetch_settled ((fetch_cons h).trans (fetchCycle_idle hrst hvalid _))

theorem step_line_run {s : State} {text : List Char} {rest : List HostMove} {i : Instr}
    (h : s.host = .line text :: rest) (hi : assemble s.cfg.ext text = .instr i) :
    step s = exec i { s with host := rest } :=
  step_of_fetch_run ((fetch_cons h).trans (fetchLine_instr (s := { s with host := rest }) hi))

theorem step_line_unknown {s : State} {text : List Char} {rest : List HostMove} (h : s.host = .line text :: rest)
    (ht : assemble s.cfg.ext text = .unknown) : step s = .next { s with host := rest } :=
  step_of_fetch_settled ((fetch_cons h).trans (fetchLine_unknown (s := { s with host := rest }) ht))

/-! ### The word that `withFetchWord` places (log 2) -/

/-- A word of the whole opcode table decodes alike in a block that has its row. -/
theorem decode_withRowOf {w : Word} {i : Instr} (h : decode ExtRType.all w = .instr i) (ext : ExtRType) :
    decode (ExtRType.withRowOf ext w) w = .instr i := by
  obtain ⟨he, hwf⟩ := encode_of_decode h
  refine decode_eq_instr_iff.2 ⟨he, ?_⟩
  rw [ExtRType.withRowOf, h]
  cases i with
  | nor | sla => rfl
  | _ => exact hwf

/-- The host's word number is the word itself: 32 bits cut nothing off. -/
theorem ofNat_toNat_mod (w : Word) : BitVec.ofNat 32 (w.toNat % 2 ^ 32) = w := by
  rw [Nat.mod_eq_of_lt w.isLt, BitVec.ofNat_toNat, BitVec.setWidth_eq]

theorem decodeTableWord_eq_some {w : Word} {i : Instr} (h : decodeTableWord 32 w.toNat = some i) :
    decode ExtRType.all w = .instr i := by
  rw [decodeTableWord, if_pos le_rfl, ofNat_toNat_mod] at h
  split at h
  next hd => rw [hd, Option.some.inj h]
  next => cases h

theorem State.withFetchWord_eq (s : State) (w : Word) :
    s.withFetchWord 32 w.toNat =
      { s with host := presentWord w :: s.host, cfg := { s.cfg with ext := ExtRType.withRowOf s.cfg.ext w } } := by
  rw [State.withFetchWord, ofNat_toNat_mod]

/-! ### Unknown lines (R111, R145) -/

/-- The mnemonic is the longest prefix without a space (R110). -/
theorem lineMnemonic_eq_takeWhile (text : List Char) : lineMnemonic text = text.takeWhile (fun c => c != ' ') := by
  induction text with
  | nil => rfl
  | cons c cs ih =>
    rw [lineMnemonic, List.takeWhile_cons, ih]
    by_cases h : c = ' ' <;> simp [h]

/-- A line whose mnemonic is in no enabled set is Unknown, whatever its tail. -/
theorem assemble_unknown {ext : ExtRType} {text : List Char}
    (h : ∀ o ∈ membershipSets, o.enabled ext = true → Op.text o ≠ lineMnemonic text) : assemble ext text = .unknown := by
  have hnone : classify ext (lineMnemonic text) = none :=
    List.find?_eq_none.2 fun o ho hp => by
      obtain ⟨hen, htext⟩ := Bool.and_eq_true_iff.1 hp
      exact h o ho hen (beq_iff_eq.1 htext)
  simp only [assemble, hnone]

/-! ### What stops the machine -/

theorem exec_of_unbounded {s : State} (h : s.cfg.memCapacity = none) (i : Instr) : ∃ t, exec i s = .next t := by
  cases hrd : i.rd? with
  | some rd =>
    obtain ⟨v, -, he⟩ := exec_of_rd hrd s
    exact ⟨_, he⟩
  | none =>
    obtain ⟨n, rs2, rs1, imm, -, -, -, -, he⟩ := exec_of_no_rd hrd
    exact ⟨_, (he s).trans (State.store_of_unbounded h _ _ _)⟩

/-- The one fault of an instruction is a store's, under a finite capacity (R72). -/
theorem exec_fault {i : Instr} {s : State} {f : Fault} (h : exec i s = .fault f) :
    f = .storageExhausted ∧ ∃ c, s.cfg.memCapacity = some c := by
  cases hrd : i.rd? with
  | some rd =>
    obtain ⟨v, -, he⟩ := exec_of_rd hrd s
    cases he.symm.trans h
  | none =>
    obtain ⟨n, rs2, rs1, imm, -, -, -, -, he⟩ := exec_of_no_rd hrd
    rw [he] at h
    rcases State.store_cases s (s.effAddr rs1 imm) n (s.readReg rs2) with ⟨h', -⟩ | ⟨h', c, hc, -⟩
    · cases h'.symm.trans h
    · exact ⟨(Host.Outcome.fault.inj (h'.symm.trans h)).symm, c, hc⟩

/-- Taking the move does not touch the parameters. -/
theorem fetch_run_cfg {s s' : State} {i : Instr} (h : fetch s = .run i s') : s'.cfg = s.cfg := by
  cases hh : s.host with
  | nil => cases (fetch_nil hh).symm.trans h
  | cons m rest => rw [fetchMove_run ((fetch_cons hh).symm.trans h)]

theorem fetchWord_ne_malformed (w : Word) (s : State) (e : LineError) : fetchWord w s ≠ .malformed e := by
  cases hd : decode s.cfg.ext w with
  | instr i => simp [fetchWord_instr hd]
  | unknown why => simp [fetchWord_unknown hd]

/-- The one move that is refused is a line that the assembler refuses (R118). -/
theorem fetchMove_malformed {m : HostMove} {s : State} {e : LineError} (h : fetchMove m s = .malformed e) :
    ∃ text, m = .line text ∧ assemble s.cfg.ext text = .malformed e := by
  cases m with
  | cycle p =>
    simp only [fetchMove, fetchCycle] at h
    split_ifs at h
    exact absurd h (fetchWord_ne_malformed _ _ _)
  | line text =>
    simp only [fetchMove, fetchLine] at h
    split at h <;> cases h
    exact ⟨text, rfl, by assumption⟩
  | writeReg i v => cases h

theorem step_fault {s : State} {f : Fault} (h : step s = .fault f) :
    f = .storageExhausted ∧ ∃ c, s.cfg.memCapacity = some c := by
  cases hf : fetch s with
  | run i s' =>
    rw [← fetch_run_cfg hf]
    exact exec_fault ((step_of_fetch_run hf).symm.trans h)
  | settled s' => cases (step_of_fetch_settled hf).symm.trans h
  | malformed e => rw [step, hf] at h; cases h

theorem step_refused {s : State} {r : Refusal} (h : step s = .refused r) :
    ∃ text rest e, s.host = .line text :: rest ∧ assemble s.cfg.ext text = .malformed e ∧ r = .malformedLine e := by
  cases hf : fetch s with
  | run i s' => exact absurd ((step_of_fetch_run hf).symm.trans h) (exec_not_refused i s' r)
  | settled s' => cases (step_of_fetch_settled hf).symm.trans h
  | malformed e =>
    rw [step, hf] at h
    cases hh : s.host with
    | nil => cases (fetch_nil hh).symm.trans hf
    | cons m rest =>
      obtain ⟨text, rfl, ha⟩ := fetchMove_malformed ((fetch_cons hh).symm.trans hf)
      exact ⟨text, rest, e, rfl, ha, (Host.Outcome.refused.inj h).symm⟩

/-! ### Steps that answer a next state (R146) -/

theorem step_presenting_of_unbounded {s : State} (h : s.cfg.memCapacity = none) (w : Word) (rest : List HostMove) :
    ∃ t, step (s.presenting w rest) = .next t := by
  cases hd : decode s.cfg.ext w with
  | instr i =>
    obtain ⟨t, ht⟩ := exec_of_unbounded (s := { s with host := rest }) h i
    exact ⟨t, (step_cycle_run (s := s.presenting w rest) rfl rfl rfl hd).trans ht⟩
  | unknown why => exact ⟨_, step_cycle_unknown (s := s.presenting w rest) rfl rfl rfl hd⟩

theorem step_presentingLine_of_unbounded {s : State} (h : s.cfg.memCapacity = none) {text : List Char}
    (hok : ∀ e, assemble s.cfg.ext text ≠ .malformed e) (rest : List HostMove) :
    ∃ t, step (s.presentingLine text rest) = .next t := by
  cases ha : assemble s.cfg.ext text with
  | instr i =>
    obtain ⟨t, ht⟩ := exec_of_unbounded (s := { s with host := rest }) h i
    exact ⟨t, (step_line_run (s := s.presentingLine text rest) rfl ha).trans ht⟩
  | unknown => exact ⟨_, step_line_unknown (s := s.presentingLine text rest) rfl ha⟩
  | malformed e => exact absurd ha (hok e)

/-! ### The destination of an instruction (R144) -/

theorem Width.bytes_le (n : Width) : n.bytes ≤ 4 := by cases n <;> decide

/-- A store leaves alone every cell, and its membership in `W`, outside the four from its address on. -/
theorem State.memWrite_outside (s : State) (addr : Addr) (n : Width) (v : Word) {a : Addr}
    (h : ∀ k < 4, a ≠ addr + BitVec.ofNat 32 k) :
    (s.memWrite addr n v).memoryGet a = s.memoryGet a ∧ (a ∈ (s.memWrite addr n v).written ↔ a ∈ s.written) := by
  have hout : ∀ k < n.bytes, a ≠ addr + BitVec.ofNat 32 k := fun k hk => h k (hk.trans_le n.bytes_le)
  refine ⟨State.memWrite_elsewhere s addr n v a hout, (State.mem_memWrite_written s addr n v a).trans ?_⟩
  exact or_iff_left fun ⟨k, hk, ha⟩ => hout k hk ha

end Sys2Proof.Machine

namespace Sys2Proof
open Machine

/-- Settles O28: such a word decodes to Unknown by the opcode table, and such a line is classified as Unknown. -/
theorem unknownChangesNothing : Obligations.UnknownChangesNothing := by
  refine ⟨fun s w rest h => ?_, fun s text rest h => ?_⟩
  · obtain ⟨why, hw⟩ := (decodeFollowsOpcodeTable s.cfg.ext w).2.2 h
    exact step_cycle_unknown (s := s.presenting w rest) rfl rfl rfl hw
  · rw [← lineMnemonic_eq_takeWhile] at h
    exact step_line_unknown (s := s.presentingLine text rest) rfl (assemble_unknown h)

/-- Settles O29: an instruction stops only in a store without room, and a move only in a malformed line. -/
theorem stepIsTotalOnWords : Obligations.StepIsTotalOnWords :=
  ⟨fun _ w rest hcap => step_presenting_of_unbounded hcap w rest,
    fun _ _ rest hcap => ⟨fun _ he => step_presentingLine_malformed rest he,
      fun hok => step_presentingLine_of_unbounded hcap hok rest⟩,
    fun _ _ h => step_fault h, fun _ _ h => step_refused h⟩

/-- Settles O30: an instruction that completes is one register write, or one `MemWrite` of at most four bytes. -/
theorem oneDestinationPerInstruction : Obligations.OneDestinationPerInstruction := by
  intro i s t h
  refine ⟨State.readReg_zero t, ?_⟩
  rcases exec_next h with ⟨rd, v, hrd, -, rfl⟩ | ⟨n, rs2, rs1, imm, hi, rfl, -⟩
  · have hw := State.writeReg_writesOnly s rd v
    exact .inl ⟨⟨rd, hrd, hw.others⟩, hw.memory, hw.written⟩
  · have hfields : i.rd? = none ∧ i.rs1? = some rs1 ∧ i.imm? = some imm := by
      rcases hi with ⟨-, rfl⟩ | ⟨-, rfl⟩ <;> exact ⟨rfl, rfl, rfl⟩
    obtain ⟨hrd, hrs1, himm⟩ := hfields
    exact .inr ⟨hrd, State.readReg_congr (State.memWrite_frame _ _ _ _).1, rs1, imm, hrs1, himm,
      fun a ha => State.memWrite_outside s _ n _ ha⟩

/-- Settles O27: the move fetches its instruction; and the row of the word that `withFetchWord` places exists in the
block it makes. -/
theorem stepRunsPresentedInstruction : Obligations.StepRunsPresentedInstruction := by
  refine ⟨fun s p rest i => step_cycle_run, fun s text rest i => step_line_run, fun s w i h => ?_⟩
  have hd := decode_withRowOf (decodeTableWord_eq_some h) s.cfg.ext
  rw [State.withFetchWord_eq]
  exact step_cycle_run rfl rfl rfl hd

/-- Settles O34: an idle cycle and the end of the host's moves both settle at once. -/
theorem idleCycleChangesNothing : Obligations.IdleCycleChangesNothing :=
  ⟨fun _ _ _ => step_cycle_idle, fun _ h => step_of_fetch_settled (fetch_nil h)⟩

end Sys2Proof
end

section
/-! PROOFS. The Register-type instructions (41_register_type.md): the rule of a member of the class follows from its row
of the opcode table, the operator its meaning hands to `regForm`, and what that operator makes of two words; and what
becomes of an optional member that is not in `EXT_RTYPE` (R145). -/

namespace Sys2Proof.Machine

/-! ### The rule of the class, once for its ten members -/

/-- A word of a row of R99 decodes to the row's instruction with the document's slices as operands. -/
theorem decode_of_rowR {o : ROp} {bits : Word} (hrow : ⟨.reg o, bits, 0xFE00707F#32⟩ ∈ opTable) {ext : ExtRType}
    (hen : Op.enabled ext (.reg o) = true) {w : Word} (h : w &&& 0xFE00707F#32 = bits) :
    decode ext w =
      .instr (ROp.instr ((w >>> 7).setWidth 5) ((w >>> 15).setWidth 5) ((w >>> 20).setWidth 5) o) := by
  rw [slice_rd, slice_rs1, slice_rs2]
  exact decode_of_hits hrow h hen

/-- A Register-type instruction writes its operator's result to its destination and nothing else. -/
theorem State.regForm_writesOnly (s : State) (f : Word → Word → Word) (rd rs1 rs2 : RegIdx) :
    ∃ t, s.regForm f rd rs1 rs2 = .next t ∧ WritesOnly s t rd (f (s.readReg rs1) (s.readReg rs2)) :=
  ⟨_, rfl, s.writeReg_writesOnly rd _⟩

/-- The rule of a Register-type instruction, from its row, its operator and the operator's result. -/
theorem registerTypeRule_of_row (o : ROp) {bits : Word} {enabled : ExtRType → Prop} {f : Word → Word → Word}
    {res : Word → Word → Word → Prop} (hrow : ⟨.reg o, bits, 0xFE00707F#32⟩ ∈ opTable)
    (hen : ∀ ext, enabled ext → Op.enabled ext (.reg o) = true)
    (hexec : ∀ rd rs1 rs2 s, exec (ROp.instr rd rs1 rs2 o) s = s.regForm f rd rs1 rs2)
    (hres : ∀ a b, res a b (f a b)) :
    RegisterTypeRule (fun rd rs1 rs2 => ROp.instr rd rs1 rs2 o) bits enabled res := by
  refine ⟨fun ext w he h => decode_of_rowR hrow (hen ext he) h, fun s rd rs1 rs2 => ?_⟩
  obtain ⟨t, ht, hw⟩ := s.regForm_writesOnly f rd rs1 rs2
  exact ⟨t, _, (hexec rd rs1 rs2 s).trans ht, hres _ _, hw⟩

/-! ### A row or a mnemonic that is not enabled (R145) -/

/-- A word of a row that does not exist matches no existing row: the rows are disjoint (R104). -/
theorem not_hits_of_disabled {ext : ExtRType} {r : OpRow} (hr : r ∈ opTable) (hdis : r.op.enabled ext = false)
    {w : Word} (h : r.hits w) : ∀ r' ∈ opTable, r'.op.enabled ext = true → ¬ r'.hits w := by
  intro r' hr' hen h'
  obtain rfl := opcodeRowsDisjoint w r hr r' hr' h h'
  exact absurd hen (by simp [hdis])

/-- A line of a mnemonic that is not enabled is Unknown: no two names share a mnemonic. -/
theorem assemble_unknown_of_disabled {ext : ExtRType} {o : Op} (hdis : o.enabled ext = false) {text : List Char}
    (h : lineMnemonic text = Op.text o) : assemble ext text = .unknown := by
  refine assemble_unknown fun o' ho' hen htext => ?_
  obtain rfl := text_injOn_membershipSets o' ho' o (mem_membershipSets o) (htext.trans h)
  exact absurd hen (by simp [hdis])

/-- The rule of an optional instruction that is not enabled, from its row and its mnemonic. -/
theorem absentRule_of_row (o : ROp) {bits : Word} {disabled : ExtRType → Prop}
    (hrow : ⟨.reg o, bits, 0xFE00707F#32⟩ ∈ opTable)
    (hdis : ∀ ext, disabled ext → Op.enabled ext (.reg o) = false) :
    AbsentRule (ROp.text o) bits disabled := by
  refine ⟨fun s w rest hd h => ?_, fun ext text hd ht => assemble_unknown_of_disabled (o := .reg o) (hdis ext hd) ht⟩
  have hnone := not_hits_of_disabled hrow (hdis _ hd) h
  exact ⟨(decodeFollowsOpcodeTable s.cfg.ext w).2.2 hnone, unknownChangesNothing.1 s w rest hnone⟩

/-! ### The operators, on integers and natural numbers -/

/-- Addition is that of the signed integers, modulo 2^32 (R160, R161). -/
theorem add_eq_ofInt (a b : Word) : a + b = BitVec.ofInt 32 (a.toInt + b.toInt) := by
  rw [BitVec.ofInt_add, BitVec.ofInt_toInt, BitVec.ofInt_toInt]

/-- Subtraction is that of the signed integers, modulo 2^32 (R160, R162). -/
theorem sub_eq_ofInt (a b : Word) : a - b = BitVec.ofInt 32 (a.toInt - b.toInt) := by
  rw [Int.sub_eq_add_neg, BitVec.ofInt_add, BitVec.ofInt_neg, BitVec.ofInt_toInt, BitVec.ofInt_toInt,
    BitVec.sub_eq_add_neg]

/-- `lt_s` compares the signed values (R9). -/
theorem ltS_eq (a b : Word) : ltS a b = if a.toInt < b.toInt then 0x00000001#32 else 0x00000000#32 := by
  simp only [ltS, boolWord, BitVec.slt_iff_toInt_lt]

/-- The shift amount is source2 modulo 32 (R171). -/
theorem shamt_eq (b : Word) : shamt b = b.toNat % 32 := by
  rw [shamt, BitVec.extractLsb'_toNat, Nat.shiftRight_zero]

/-- A left shift multiplies by a power of two, modulo 2^32 (R167). -/
theorem shiftLeft_shamt_toNat (a b : Word) : (a <<< shamt b).toNat = a.toNat * 2 ^ (b.toNat % 32) % 2 ^ 32 := by
  rw [BitVec.toNat_shiftLeft, Nat.shiftLeft_eq, shamt_eq]

/-- An arithmetic right shift is the floor of the division by a power of two (R168). -/
theorem sshiftRight_shamt_toInt (a b : Word) :
    (a.sshiftRight (shamt b)).toInt = a.toInt / 2 ^ (b.toNat % 32) := by
  rw [BitVec.toInt_sshiftRight, Int.shiftRight_eq_div_pow, shamt_eq, Nat.cast_pow, Nat.cast_ofNat]

/-- `nor` tests both sources for zero (R169). -/
theorem norLogical_eq (a b : Word) :
    norLogical a b = if a = 0x00000000#32 ∧ b = 0x00000000#32 then 0x00000001#32 else 0x00000000#32 := by
  simp only [norLogical, boolWord, beq_iff_eq, BitVec.or_eq_zero_iff]

end Sys2Proof.Machine

namespace Sys2Proof
open Machine

/-- Settles O7: the operator is addition modulo 2^32. -/
theorem addRule : Obligations.AddRule :=
  ⟨registerTypeRule_of_row .add (by decide) (fun _ _ => rfl) (fun _ _ _ _ => rfl) add_eq_ofInt, by decide⟩

/-- Settles O8: the operator is subtraction modulo 2^32. -/
theorem subRule : Obligations.SubRule :=
  ⟨registerTypeRule_of_row .sub (by decide) (fun _ _ => rfl) (fun _ _ _ _ => rfl) sub_eq_ofInt, by decide⟩

/-- Settles O9: the operator is the AND of each bit. -/
theorem andRule : Obligations.AndRule :=
  ⟨registerTypeRule_of_row .and (by decide) (fun _ _ => rfl) (fun _ _ _ _ => rfl) fun _ _ _ _ => BitVec.getLsbD_and,
    by decide⟩

/-- Settles O10: the operator is the OR of each bit. -/
theorem orRule : Obligations.OrRule :=
  ⟨registerTypeRule_of_row .or (by decide) (fun _ _ => rfl) (fun _ _ _ _ => rfl) fun _ _ _ _ => BitVec.getLsbD_or,
    by decide⟩

/-- Settles O11: the operator is the exclusive OR of each bit. -/
theorem xorRule : Obligations.XorRule :=
  ⟨registerTypeRule_of_row .xor (by decide) (fun _ _ => rfl) (fun _ _ _ _ => rfl) fun _ _ _ _ => BitVec.getLsbD_xor,
    by decide⟩

/-- Settles O12: the operator is the signed comparison. -/
theorem sltRule : Obligations.SltRule :=
  ⟨registerTypeRule_of_row .slt (by decide) (fun _ _ => rfl) (fun _ _ _ _ => rfl) fun a b =>
    ⟨fun h => (ltS_eq a b).trans (if_pos h), fun h => (ltS_eq a b).trans (if_neg (not_lt.2 h))⟩, by decide⟩

/-- Settles O13: the operator is the left shift by source2 modulo 32. -/
theorem sllRule : Obligations.SllRule :=
  ⟨registerTypeRule_of_row .sll (by decide) (fun _ _ => rfl) (fun _ _ _ _ => rfl) shiftLeft_shamt_toNat, by decide⟩

/-- Settles O14: the operator is the arithmetic right shift by source2 modulo 32. -/
theorem sraRule : Obligations.SraRule :=
  ⟨registerTypeRule_of_row .sra (by decide) (fun _ _ => rfl) (fun _ _ _ _ => rfl) sshiftRight_shamt_toInt, by decide⟩

/-- Settles O15: the operator is the test of both sources for zero; without `nor` in `EXT_RTYPE`, its row and its
mnemonic are those of no enabled instruction. -/
theorem norRule : Obligations.NorRule :=
  ⟨registerTypeRule_of_row .nor (by decide) (fun _ h => h) (fun _ _ _ _ => rfl) fun a b =>
    ⟨fun h => (norLogical_eq a b).trans (if_pos h), fun h => (norLogical_eq a b).trans (if_neg h)⟩,
    absentRule_of_row .nor (by decide) fun _ h => h, by decide⟩

/-- Settles O16: the operator is that of `sll`; without `sla` in `EXT_RTYPE`, its row and its mnemonic are those of no
enabled instruction. -/
theorem slaRule : Obligations.SlaRule :=
  ⟨registerTypeRule_of_row .sla (by decide) (fun _ h => h) (fun _ _ _ _ => rfl) shiftLeft_shamt_toNat,
    absentRule_of_row .sla (by decide) fun _ h => h, by decide⟩

end Sys2Proof
end

section
/-! PROOFS. The Immediate-type instructions (42_immediate_type.md): the rule of a member of the class follows from its row
of the opcode table, the operator its meaning hands to `immForm`, and what that operator makes of the source and the
immediate. The operators are those of the Register-type namesakes (R180), and so are the facts about them. -/

namespace Sys2Proof.Machine

/-! ### The rule of the class, once for its five members -/

/-- A word of a row of R100 decodes to the row's instruction with the document's slices as operands. -/
theorem decode_of_rowI {o : IOp} {bits : Word} (hrow : ⟨.imm o, bits, 0x0000707F#32⟩ ∈ opTable) (ext : ExtRType)
    {w : Word} (h : w &&& 0x0000707F#32 = bits) :
    decode ext w = .instr (IOp.instr ((w >>> 7).setWidth 5) ((w >>> 15).setWidth 5) (shiftSext12 (w >>> 20)) o) := by
  rw [slice_rd, slice_rs1, slice_immI]
  exact decode_of_hits hrow h rfl

/-- An Immediate-type instruction writes its operator's result to its destination and nothing else. -/
theorem State.immForm_writesOnly (s : State) (f : Word → Word → Word) (rd rs1 : RegIdx) (imm : Word) :
    ∃ t, s.immForm f rd rs1 imm = .next t ∧ WritesOnly s t rd (f (s.readReg rs1) imm) :=
  ⟨_, rfl, s.writeReg_writesOnly rd _⟩

/-- The rule of an Immediate-type instruction, from its row, its operator and the operator's result. -/
theorem immediateTypeRule_of_row (o : IOp) {bits : Word} {f : Word → Word → Word} {res : Word → Word → Word → Prop}
    (hrow : ⟨.imm o, bits, 0x0000707F#32⟩ ∈ opTable)
    (hexec : ∀ rd rs1 imm s, exec (IOp.instr rd rs1 imm o) s = s.immForm f rd rs1 imm)
    (hres : ∀ a imm, res a imm (f a imm)) :
    ImmediateTypeRule (fun rd rs1 imm => IOp.instr rd rs1 imm o) bits res := by
  refine ⟨fun ext w h => decode_of_rowI hrow ext h, fun s rd rs1 imm => ?_⟩
  obtain ⟨t, ht, hw⟩ := s.immForm_writesOnly f rd rs1 imm
  exact ⟨t, _, (hexec rd rs1 imm s).trans ht, hres _ _, hw⟩

end Sys2Proof.Machine

namespace Sys2Proof
open Machine

/-- Settles O17: the operator is addition modulo 2^32; the literals are reduced to their low twelve bits (R97). -/
theorem addiRule : Obligations.AddiRule :=
  ⟨immediateTypeRule_of_row .addi (by decide) (fun _ _ _ _ => rfl) add_eq_ofInt, by decide, by decide, by decide,
    by decide⟩

/-- Settles O18: the operator is the AND of each bit. -/
theorem andiRule : Obligations.AndiRule :=
  ⟨immediateTypeRule_of_row .andi (by decide) (fun _ _ _ _ => rfl) fun _ _ _ _ => BitVec.getLsbD_and, by decide⟩

/-- Settles O19: the operator is the OR of each bit. -/
theorem oriRule : Obligations.OriRule :=
  ⟨immediateTypeRule_of_row .ori (by decide) (fun _ _ _ _ => rfl) fun _ _ _ _ => BitVec.getLsbD_or, by decide⟩

/-- Settles O20: the operator is the exclusive OR of each bit. -/
theorem xoriRule : Obligations.XoriRule :=
  ⟨immediateTypeRule_of_row .xori (by decide) (fun _ _ _ _ => rfl) fun _ _ _ _ => BitVec.getLsbD_xor, by decide⟩

/-- Settles O21: the operator is the signed comparison, of the source with the immediate. -/
theorem sltiRule : Obligations.SltiRule :=
  ⟨immediateTypeRule_of_row .slti (by decide) (fun _ _ _ _ => rfl) fun a imm =>
    ⟨fun h => (ltS_eq a imm).trans (if_pos h), fun h => (ltS_eq a imm).trans (if_neg (not_lt.2 h))⟩, by decide⟩

end Sys2Proof
end

section
/-! PROOFS. The Memory-type instructions (43_memory_type.md): the rule of a load and of a store follows from its row of the
opcode table and the one access that its meaning makes at the effective address; and a load after a store (R205). -/

namespace Sys2Proof.Machine

/-! ### The rule of a load, once for its two members -/

/-- A word of a load's row decodes to the load with the document's slices as operands. -/
theorem decode_of_rowLoad {o : LoadOp} {bits : Word} (hrow : ⟨.load o, bits, 0x0000707F#32⟩ ∈ opTable) (ext : ExtRType)
    {w : Word} (h : w &&& 0x0000707F#32 = bits) :
    decode ext w = .instr (LoadOp.instr ((w >>> 7).setWidth 5) ((w >>> 15).setWidth 5) (shiftSext12 (w >>> 20)) o) := by
  rw [slice_rd, slice_rs1, slice_immI]
  exact decode_of_hits hrow h rfl

/-- The rule of a load, from its row, its access `read` and what `read` makes of the cells from an address on. -/
theorem loadRule_of_row (o : LoadOp) {bits : Word} {read : State → Addr → Word} {res : (Nat → Byte) → Word → Prop}
    (hrow : ⟨.load o, bits, 0x0000707F#32⟩ ∈ opTable)
    (hexec : ∀ rd rs1 imm s, exec (LoadOp.instr rd rs1 imm o) s = s.commit rd (read s (s.effAddr rs1 imm)))
    (hres : ∀ s addr, res (fun k => s.memoryGet (addr + BitVec.ofNat 32 k)) (read s addr)) :
    LoadRule (fun rd rs1 imm => LoadOp.instr rd rs1 imm o) bits res :=
  ⟨fun ext _ h => decode_of_rowLoad hrow ext h, fun s rd rs1 imm =>
    ⟨_, _, hexec rd rs1 imm s, hres s _, s.writeReg_writesOnly rd _⟩⟩

/-! ### The values loaded -/

/-- A byte appended at the right is the low digit in base 2^8. -/
theorem toNat_append_byte {n : Nat} (x : BitVec n) (b : Byte) : (x ++ b).toNat = b.toNat + 2 ^ 8 * x.toNat := by
  rw [BitVec.toNat_append, ← Nat.shiftLeft_add_eq_or_of_lt b.isLt, Nat.shiftLeft_eq, Nat.mul_comm, Nat.add_comm]

/-- `MemRead(addr, 4)` is little-endian (R56). -/
theorem State.memRead4_toNat (s : State) (addr : Addr) :
    (s.memRead4 addr).toNat =
      (s.memoryGet addr).toNat + 2 ^ 8 * (s.memoryGet (addr + 1#32)).toNat +
        2 ^ 16 * (s.memoryGet (addr + 2#32)).toNat + 2 ^ 24 * (s.memoryGet (addr + 3#32)).toNat := by
  rw [State.memRead4, toNat_append_byte, toNat_append_byte, toNat_append_byte]
  omega

/-- The sign extension of `MemRead(addr, 1)` has the signed value of the cell (R202). -/
theorem State.signExtend_memRead1_toInt (s : State) (addr : Addr) :
    ((s.memRead1 addr).signExtend 32).toInt = (s.memoryGet addr).toInt :=
  BitVec.toInt_signExtend_of_le (by decide)

/-- A completed instruction with a destination register, such as a load, leaves every cell and `W` unchanged (R205). -/
theorem exec_memory_of_rd {i : Instr} {rd : RegIdx} (hrd : i.rd? = some rd) {s t : State} (h : exec i s = .next t) :
    (∀ a, t.memoryGet a = s.memoryGet a) ∧ t.written = s.written := by
  obtain ⟨v, -, he⟩ := exec_of_rd hrd s
  obtain rfl := Host.Outcome.next.inj (he.symm.trans h)
  have hw := s.writeReg_writesOnly rd v
  exact ⟨hw.memory, hw.written⟩

/-! ### The rule of a store, once for its two members -/

/-- A word of a store's row decodes to the store with the document's slices as operands. -/
theorem decode_of_rowStore {o : StoreOp} {bits : Word} (hrow : ⟨.store o, bits, 0x0000707F#32⟩ ∈ opTable)
    (ext : ExtRType) {w : Word} (h : w &&& 0x0000707F#32 = bits) :
    decode ext w = .instr (StoreOp.instr ((w >>> 20).setWidth 5) ((w >>> 15).setWidth 5)
      (shiftSext12 (((w >>> 25) <<< 5) ||| ((w >>> 7) &&& 0x1F#32))) o) := by
  rw [slice_rs2, slice_rs1, slice_immS]
  exact decode_of_hits hrow h rfl

/-- A store that fits completes (R72). -/
theorem State.store_of_fits {s : State} {addr : Addr} {n : Width} (h : StoreFits s addr n.bytes) (v : Word) :
    s.store addr n v = .next (s.memWrite addr n v) := by
  rcases State.store_cases s addr n v with ⟨hnext, -⟩ | ⟨-, c, hc, hlt⟩
  · exact hnext
  · rw [State.memWrite_length] at hlt
    exact absurd (h c hc) (not_le.2 hlt)

/-- The rule of a store, from its row and the width of its access. -/
theorem storeRule_of_row (o : StoreOp) (n : Width) {bits : Word}
    (hrow : ⟨.store o, bits, 0x0000707F#32⟩ ∈ opTable)
    (hexec : ∀ rs2 rs1 imm s, exec (StoreOp.instr rs2 rs1 imm o) s = s.store (s.effAddr rs1 imm) n (s.readReg rs2)) :
    StoreRule (fun rs2 rs1 imm => StoreOp.instr rs2 rs1 imm o) bits n.bytes :=
  ⟨fun ext _ h => decode_of_rowStore hrow ext h, fun s rs2 rs1 imm hs hfits =>
    ⟨_, (hexec rs2 rs1 imm s).trans (State.store_of_fits hfits _), State.memWrite_storesOnly hs.canonical _ n _⟩⟩

end Sys2Proof.Machine

namespace Sys2Proof
open Machine

/-- Settles O22: the access is `MemRead` of four bytes, little-endian. -/
theorem lwRule : Obligations.LwRule := by
  refine ⟨loadRule_of_row .lw (read := State.memRead4) (by decide) (fun _ _ _ _ => rfl) fun s addr => ?_, by decide⟩
  simpa only [addr_add_zero] using s.memRead4_toNat addr

/-- Settles O23: the access is `MemRead` of one byte, sign-extended. -/
theorem lbRule : Obligations.LbRule := by
  refine ⟨loadRule_of_row .lb (read := fun s addr => (s.memRead1 addr).signExtend 32) (by decide)
    (fun _ _ _ _ => rfl) fun s addr => ?_, by decide⟩
  simpa only [addr_add_zero] using s.signExtend_memRead1_toInt addr

/-- Settles O24: the access is `MemWrite` of four bytes. -/
theorem swRule : Obligations.SwRule :=
  ⟨storeRule_of_row .sw .word (by decide) fun _ _ _ _ => rfl, by decide⟩

/-- Settles O25: the access is `MemWrite` of one byte. -/
theorem sbRule : Obligations.SbRule :=
  ⟨storeRule_of_row .sb .byte (by decide) fun _ _ _ _ => rfl, by decide⟩

/-- Settles O42: laws (a) to (d) read the memory that `MemWrite` leaves; for (e), a load writes its destination only. -/
theorem storeThenLoadLaws : Obligations.StoreThenLoadLaws := by
  intro s hs addr v
  refine ⟨State.memRead4_memWrite hs.canonical addr v, State.memRead1_memWrite hs.canonical addr v,
    State.memWrite_stored hs.canonical addr .word v, fun n a => State.memWrite_elsewhere s addr n v a, ?_⟩
  rintro rd rs1 imm t (hlw | hlb)
  · exact exec_memory_of_rd rfl hlw
  · exact exec_memory_of_rd rfl hlb

end Sys2Proof
end

section
/-! PROOFS. The Upper-type instruction (44_upper_type.md): the rule of `lui` follows from its row of the opcode table and
the one register it writes (R220); and `lui` then `addi` builds any constant (R221), since what is left of a word when its
sign-extended low twelve bits are taken away is an upper immediate. -/

namespace Sys2Proof.Machine

/-! ### The rule of `lui` (R220) -/

/-- A word of the row of R103 decodes to `lui` with the document's slices as operands. -/
theorem decode_of_rowU (ext : ExtRType) {w : Word} (h : w &&& 0x0000007F#32 = 0x00000037#32) :
    decode ext w = .instr (.lui ((w >>> 7).setWidth 5) ((w >>> 12) <<< 12)) := by
  have hrow : ⟨.lui, 0x00000037#32, 0x0000007F#32⟩ ∈ opTable := by decide
  rw [slice_rd, slice_immU]
  exact decode_of_hits hrow h rfl

/-- `lui` writes its immediate to its destination and nothing else. -/
theorem exec_lui_writesOnly (s : State) (rd : RegIdx) (imm : Word) :
    ∃ t, exec (.lui rd imm) s = .next t ∧ WritesOnly s t rd imm :=
  ⟨_, rfl, s.writeReg_writesOnly rd imm⟩

/-! ### A word as an upper immediate and a signed rest (R221) -/

/-- Taking away the sign-extended low twelve bits leaves the high twenty, one more of them (modulo 2^20) when the rest is
negative. -/
theorem sub_signExtend_extract12 (c : Word) :
    c - (c.extractLsb' 0 12).signExtend 32 =
      (c.extractLsb' 12 20 + if c.getLsbD 11 then 1#20 else 0#20) ++ 0#12 := by
  have hmsb : (c.extractLsb' 0 12).msb = c.getLsbD 11 := by simp [BitVec.msb_eq_getLsbD_last]
  apply BitVec.eq_of_toNat_eq
  rw [BitVec.toNat_sub, BitVec.toNat_signExtend, hmsb, BitVec.toNat_append, Nat.shiftLeft_eq]
  cases c.getLsbD 11 with
  | false => simp; omega
  | true => simp; omega

theorem immIsUpper_sub_signExtend_extract12 (c : Word) :
    immIsUpper (c - (c.extractLsb' 0 12).signExtend 32) = true := by
  rw [sub_signExtend_extract12, immIsUpper, BitVec.extractLsb'_append_eq_right, beq_self_eq_true]

theorem extract20_sub_signExtend_extract12 (c : Word) :
    (c - (c.extractLsb' 0 12).signExtend 32).extractLsb' 12 20 =
      c.extractLsb' 12 20 + if c.getLsbD 11 then 1#20 else 0#20 := by
  rw [sub_signExtend_extract12, BitVec.extractLsb'_append_eq_left]

/-! ### Two steps of the machine -/

/-- The words of `lui` and then of `addi` on the same register leave the sum of their immediates in it. -/
theorem run_lui_addi (s : State) {rd : RegIdx} (hrd : rd ≠ 0#5) {hi lo : Word} (hhi : immIsUpper hi = true)
    (hlo : immFits12 lo = true) (rest : List HostMove) :
    ∃ t, core.run 2 (s.presenting (encode (.lui rd hi)) (presentWord (encode (.addi rd rd lo)) :: rest)) = .next t ∧
      t.readReg rd = hi + lo := by
  obtain ⟨t, ht, hlui⟩ := exec_lui_writesOnly { s with host := presentWord (encode (.addi rd rd lo)) :: rest } rd hi
  obtain ⟨u, hu, haddi⟩ := State.immForm_writesOnly { t with host := rest } (fun a b => a + b) rd rd lo
  have hstep : step t = .next u := by
    have hdec : decode t.cfg.ext (encode (.addi rd rd lo)) = .instr (.addi rd rd lo) := decode_encode hlo
    exact (step_cycle_run hlui.input rfl rfl hdec).trans hu
  refine ⟨u, run_two ((step_presenting_encode (i := .lui rd hi) hhi _).trans ht) hstep, ?_⟩
  have hsum : u.readReg rd = t.readReg rd + lo := haddi.result hrd
  rw [hsum, hlui.result hrd]

end Sys2Proof.Machine

namespace Sys2Proof
open Machine

/-- Settles O26: the row gives the decoding, and the meaning is one register write; the literals are reduced to their low
twenty bits (R97). -/
theorem luiRule : Obligations.LuiRule :=
  ⟨fun ext _ => decode_of_rowU ext, exec_lui_writesOnly, by decide, by decide, by decide, by decide⟩

/-- Settles O50: the two words are those of `lui` with the upper immediate and `addi` with the signed rest, whose sum is
the constant. -/
theorem luiAddiBuildAnyConstant : Obligations.LuiAddiBuildAnyConstant := by
  intro s rd c rest hrd
  obtain ⟨t, ht, hsum⟩ := run_lui_addi s hrd (immIsUpper_sub_signExtend_extract12 c)
    (immFits12_signExtend (c.extractLsb' 0 12)) rest
  rw [BitVec.sub_add_cancel] at hsum
  rw [encode, encode, formatU, formatI, extract12_signExtend] at ht
  refine ⟨⟨t, ht, hsum⟩, fun h => ?_, fun h => ?_⟩
  · rw [extract20_sub_signExtend_extract12, h, if_pos rfl]
  · rw [extract20_sub_signExtend_extract12, h, if_neg Bool.false_ne_true, BitVec.add_zero]

end Sys2Proof
end

section
/-! PROOFS. The reset signal (70_reset_and_hazards.md R261, R263): a cycle with `rst` high settles in the reset of the
state, whose sparse store is the freshly allocated one. -/

namespace Sys2Proof.Machine

/-- `rst` is looked at before `instr_valid` and the word (R263). -/
theorem fetchCycle_reset {p : Pins} (hrst : p.rst = true) (s : State) : fetchCycle p s = .settled s.applyReset := by
  rw [fetchCycle, if_pos hrst]

theorem step_cycle_reset {s : State} {p : Pins} {rest : List HostMove} (h : s.host = .cycle p :: rest)
    (hrst : p.rst = true) : step s = .next (State.applyReset { s with host := rest }) :=
  step_of_fetch_settled ((fetch_cons h).trans (fetchCycle_reset hrst _))

/-- `init` allocates empty containers only (R69). -/
theorem SparseStore.nodes_of_mem_init {n : Nat} {c : SeqContainer} (h : c ∈ (SparseStore.init n).buckets) :
    c.nodes = [] := by
  rw [List.eq_of_mem_replicate h, SeqContainer.empty]

theorem State.nodes_of_mem_buckets_of_written_nil {s : State} (h : s.written = []) {c : SeqContainer}
    (hc : c ∈ s.sparseStore.buckets) : c.nodes = [] := by
  rw [State.sparseStore_of_written_nil h] at hc
  exact SparseStore.nodes_of_mem_init hc

end Sys2Proof.Machine

namespace Sys2Proof
open Machine

/-- Settles O37: the step is the reset of the state in which the move has been taken, which empties `M` and `W`, hence
every bucket, and touches nothing else. -/
theorem resetSignalEmptiesMemory : Obligations.ResetSignalEmptiesMemory := by
  intro s p rest h hrst
  refine ⟨State.applyReset { s with host := rest }, step_cycle_reset h hrst, State.memoryGet_applyReset _,
    fun a => List.not_mem_nil, State.sparseStore_size_of_written_nil (State.applyReset_written _),
    fun c => State.nodes_of_mem_buckets_of_written_nil (State.applyReset_written _), fun r => ?_,
    State.readReg_zero _, State.applyReset_cfg _, State.applyReset_host _⟩
  exact State.readReg_congr (State.applyReset_regs _) r

end Sys2Proof
end
